-- ==== Sys2Proof/Word.lean ====
section
/-! DEFINITION. The widths the spec fixes once and for all, and the types of an octet and of a ring position. -/

namespace Sys2Proof

/-- An octet: 8 modulation bits of one channel, and also one byte of memory (R13, R52). -/
abbrev Octet := BitVec 8

/-- A ring position: the write position `WP` and every index into `H` (R20, R21, R25). -/
abbrev RingPos := BitVec 4

/-- `HIST_CAP`: slots of the history ring (R5). -/
abbrev histCap : Nat := 16

/-- `OCTET_BITS`, also the decimation factor `DECIM` (R5). -/
abbrev octetBits : Nat := 8

/-- `NTAPS`: taps of the filter (R5). -/
abbrev nTaps : Nat := 128

/-- `NLAG`: rows of the coefficient table, one per lag (R5). -/
abbrev nLag : Nat := 16

/-- `SAMPLE_BYTES`: bytes of one output sample, an IEEE 754 binary32 word (R6). -/
abbrev sampleBytes : Nat := 4

/-- `FILL`: the value every history slot takes at reset (R5). -/
abbrev fill : Octet := 0x00

/-- `WP_INIT`: the write position after reset (R6). -/
abbrev wpInit : RingPos := 0

end Sys2Proof
end

