-- ==== Sys2Proof/Config.lean ====
section
/-! DEFINITION. The parameters the source leaves open (R6), as one record that every operation takes as an argument,
and the free values of the parameters the spec gives no default for. -/

namespace Sys2Proof

/-- The parameters of R6. `EW` and `AW` are derived (`Config.ew`, `Config.aw`); `WP_INIT` and `SAMPLE_BYTES` are fixed
(`wpInit`, `sampleBytes`); `CTAB` is computed from `taps` (`Machine.ctab`). -/
structure Config where
  /-- `ADDR_W`: width in bits of a byte address, of COUNT and of a stride. -/
  addrW : Nat
  /-- `TW`: width in bits of one tap. -/
  tw : Nat
  /-- `FRAC`: number of fraction bits of an accumulator integer. -/
  frac : Nat
  /-- `N_INST`: number of engine instances. -/
  nInst : Nat
  /-- `TAPS[0..127]`: the impulse response, newest bit first, in units of `2^(-FRAC)`. -/
  taps : List Int
deriving DecidableEq, Repr

/-- `EW = TW + 4`, the width of one coefficient-table entry (R6). -/
def Config.ew (c : Config) : Nat := c.tw + 4

/-- `AW = TW + 8`, the width of the accumulator (R6). -/
def Config.aw (c : Config) : Nat := c.tw + 8

/-- An integer is the value of an `n`-bit two's-complement pattern (R12, `sext_N`). -/
abbrev FitsSigned (n : Nat) (x : Int) : Prop := -(2 : Int) ^ (n - 1) ≤ x ∧ x < (2 : Int) ^ (n - 1)

/-- The constraints R6 puts on the parameters. -/
abbrev Config.Wf (c : Config) : Prop :=
  3 ≤ c.addrW ∧ 2 ≤ c.tw ∧ c.tw ≤ 18 ∧ c.frac ≤ 126 ∧ 1 ≤ c.nInst ∧ c.taps.length = nTaps ∧
    ∀ t ∈ c.taps, FitsSigned c.tw t

/-- FREE VALUE (log 2): the bits of tap `n` of the machine whose reset state is `State.reset`. No source gives the tap
values (R4 (d), R6). -/
opaque Config.tap : Nat → BitVec 16

/-- FREE VALUE (log 3): how many instances beyond the first the machine of `State.reset` has (R6, R171: `N_INST >= 1`). -/
opaque Config.moreInst : Nat

/-- The configuration of `State.reset`: the defaults of R6 (log 1), and free values where R6 gives none (log 2, log 3). -/
def Config.chip : Config where
  addrW := 32
  tw := 16
  frac := 20
  nInst := Config.moreInst + 1
  taps := (List.range nTaps).map fun n => (Config.tap n).toInt

end Sys2Proof
end

