-- ==== Sys2Proof/Syntax.lean ====
section
/-! DEFINITION. The commands of the engine, one constructor per row of spec/opcode_table.json, and the reasons the decoder
rejects a packet for. -/

namespace Sys2Proof

/-- Bit order of a TRANSLATE (R85): which bit of an octet is earliest in time. -/
inductive BitOrder where
  /-- `ORD = 0`: bit 7 is the earliest. -/
  | msbf
  /-- `ORD = 1`: bit 0 is the earliest. -/
  | lsbf
deriving DecidableEq, Repr

/-- A command (R82, R83). The operands of TRANSLATE are the unsigned values of its fields, in the order of the packet's
words with the bit order where the assembler has it (R90); R84's assembly (which of them are signed, what is scaled) is
done when the command is accepted. -/
inductive Instr where
  /-- RESET (R100). -/
  | reset
  /-- TRANSLATE count, src, sstride, ord, dst, dstride (R110). -/
  | translate (count src sstride : Nat) (ord : BitOrder) (dst dstride : Nat)
deriving DecidableEq, Repr

/-- Why the decoder rejects the words on a command port. The first three are R88's cases of an invalid `W0`. -/
inductive Reject where
  /-- R88: `OPC` is neither `0x01` nor `0x02`. -/
  | unassignedOpcode (w0 : BitVec 32)
  /-- R88: `RSV` is not 0. -/
  | reservedBits (w0 : BitVec 32)
  /-- R88: `OPC = 0x01` and `ORD = 1`. -/
  | resetWithOrd (w0 : BitVec 32)
  /-- DESIGN CHOICE, safe (log 9): no word at all. -/
  | noWord
  /-- DESIGN CHOICE, safe (log 9): a TRANSLATE followed by fewer than five words. -/
  | truncated
  /-- DESIGN CHOICE, safe (log 9): words after the packet that the first word begins. -/
  | extraWords
  /-- DESIGN CHOICE, safe (log 9): a number that does not fit the width R80 gives its word. -/
  | wideWord
deriving DecidableEq, Repr

end Sys2Proof
end

