-- ==== Sys2Proof/WellFormed.lean ====
section
/-! DEFINITION. The static check on a command: every operand fits the `ADDR_W` bits of its packet word (R83). R88: every
value that fits is valid. -/

namespace Sys2Proof

/-- The command can be written as a packet of a machine with `aw`-bit addresses (R80, R83, R94). -/
def Instr.wf (aw : Nat) : Instr → Bool
  | .reset => true
  | .translate count src sstride _ dst dstride =>
    decide (count < 2 ^ aw) && decide (src < 2 ^ aw) && decide (sstride < 2 ^ aw) &&
      decide (dst < 2 ^ aw) && decide (dstride < 2 ^ aw)

end Sys2Proof
end

