-- ==== Sys2Proof/Decode.lean ====
section
/-! DEFINITION. Decoding the words on a command port (R80 to R94), total and rejecting by name, and after it the encoder. -/

namespace Sys2Proof

/-- What `W0` alone selects (R86, R92). -/
inductive Verdict where
  | reset
  | translate (ord : BitOrder)
  | invalid (r : Reject)
deriving DecidableEq, Repr

/-- The decoder's answer: a command with the words after its packet, or a rejection by name. -/
inductive Decoded where
  | ok (i : Instr) (rest : List Nat)
  | rejected (r : Reject)
deriving DecidableEq, Repr

/-- `OPC`, bits 7:0 of `W0` (R81). -/
def w0Opc (w : BitVec 32) : BitVec 8 := w.extractLsb' 0 8

/-- `ORD`, bit 8 of `W0` (R81). -/
def w0Ord (w : BitVec 32) : Bool := w.getLsbD 8

/-- `RSV`, bits 31:9 of `W0` (R81). -/
def w0Rsv (w : BitVec 32) : BitVec 23 := w.extractLsb' 9 23

/-- R85: `ORD = 0` is `MSBF`, `ORD = 1` is `LSBF`. -/
def bitOrderOf (ord : Bool) : BitOrder := if ord then .lsbf else .msbf

/-- R85, the other way. -/
def ordBit : BitOrder → Bool
  | .msbf => false
  | .lsbf => true

/-- The opcode map (R86) with R88's invalid words. -/
def decodeW0 (w : BitVec 32) : Verdict :=
  if w0Rsv w ≠ 0 then .invalid (.reservedBits w)
  else if w0Opc w = 0x01 then
    if w0Ord w then .invalid (.resetWithOrd w) else .reset
  else if w0Opc w = 0x02 then .translate (bitOrderOf (w0Ord w))
  else .invalid (.unassignedOpcode w)

/-- How many words the packet that begins with this `W0` has (R87). -/
def packetLength (w : BitVec 32) : Nat :=
  match decodeW0 w with
  | .translate _ => 6
  | .reset => 1
  | .invalid _ => 1

/-- The words are one packet: as many as the first of them says (R8, R80, R87). -/
def onePacket : List Nat → Bool
  | [] => false
  | w0 :: ws => decide (ws.length + 1 = packetLength (BitVec.ofNat 32 w0))

/-- The five operand words of format T, in packet order: COUNT, SRC, SSTRIDE, DST, DSTRIDE (R83). -/
def decodeOperands (aw : Nat) (ord : BitOrder) : List Nat → Decoded
  | count :: src :: sstride :: dst :: dstride :: rest =>
    if (Instr.translate count src sstride ord dst dstride).wf aw then
      .ok (.translate count src sstride ord dst dstride) rest
    else .rejected .wideWord
  | _ => .rejected .truncated

/-- The decoder (R86, R87, R92) for `aw`-bit addresses (R94): `W0` first, then, for a TRANSLATE, five words more. It
reads no state. -/
def decode (aw : Nat) : List Nat → Decoded
  | [] => .rejected .noWord
  | w0 :: ws =>
    if w0 < 2 ^ 32 then
      match decodeW0 (BitVec.ofNat 32 w0) with
      | .reset => .ok .reset ws
      | .translate ord => decodeOperands aw ord ws
      | .invalid r => .rejected r
    else .rejected .wideWord

/-- A packet as one bit string, `W0` in the least significant 32 bits and each later word in the next `aw` bits (R83),
cut into its words. -/
def wordsOfBits (aw bits : Nat) : List Nat :=
  (bits % 2 ^ 32 :: (List.range 5).map fun k => bits / 2 ^ (32 + aw * k) % 2 ^ aw).take
    (packetLength (BitVec.ofNat 32 bits))

/-- The command read from a packet whose bits, numbered as spec/opcode_table.json numbers them (`ADDR_W = 32`, R94), are
the low `nbits` of `w`, and 0 above. -/
def decodeTableWord (nbits w : Nat) : Option Instr :=
  match decode 32 (wordsOfBits 32 (w % 2 ^ nbits)) with
  | .ok i _ => some i
  | .rejected _ => none

/-! ### The encoder -/

/-- `W0` of a format T packet: `OPC = 0x02` and `ORD` in bit 8 (R81, R83). -/
def translateW0 (ord : BitOrder) : Nat := 0x02 + if ordBit ord then 2 ^ 8 else 0

/-- The words of a command in delivery order (R82, R83). -/
def encode : Instr → List Nat
  | .reset => [0x00000001]
  | .translate count src sstride ord dst dstride =>
    [translateW0 ord, count, src, sstride, dst, dstride]

end Sys2Proof
end

