-- ==== Sys2Proof/Machine/State.lean ====
section
/-! DEFINITION. The machine's state as plain data, the reasons a step can stop, and the state after reset. -/

namespace Sys2Proof.Machine

/-- Memory as (address, byte) pairs: addresses strictly rising, no byte equal to `unlisted` (`Memory.Wf`). -/
abbrev Memory := List Host.Cell

/-- The history ring and its write position: the 132 bits of architectural state of one instance (R20, R21). -/
structure HistRing where
  /-- `H[0..15]`, raw octets (R20, R23). -/
  hist : Vector Octet histCap
  /-- `WP`, the slot the next octet is written to (R21). -/
  wp : RingPos
deriving DecidableEq, Repr

/-- A run of byte addresses `base .. base + len - 1`. -/
structure Region where
  base : Nat
  len : Nat
deriving DecidableEq, Repr

/-- The launch memory of a command: the bytes the host declares readable and the bytes it declares writable (R60, R61,
R174). -/
structure Launch where
  readable : List Region
  writable : List Region
deriving DecidableEq, Repr

/-- The command port (R8): the words of the packet delivered and not yet accepted, none when there is no such packet, and
the launch memory the host declared with it, which stays for the command it starts. -/
structure Port where
  words : List Nat
  launch : Launch
deriving DecidableEq, Repr

/-- The in-flight registers of a TRANSLATE (R35), and the bytes of the current sample that are still on their way to
memory (R69, R58; log 7). -/
structure Flight where
  /-- `REM`: steps still to do. -/
  rem : Nat
  /-- `SP`: address of the next octet. -/
  sp : Nat
  /-- `DP`: address of the next sample. -/
  dp : Nat
  /-- `SS`: the input stride, signed. -/
  ss : Int
  /-- `DS`: the output stride, signed, in samples. -/
  ds : Int
  /-- `ORDL`: the latched bit order. -/
  ord : BitOrder
  /-- Bytes of the sample last computed that memory has not received yet. -/
  out : List Host.Cell
deriving DecidableEq, Repr

/-- One engine instance (R171). `BUSY = 1` is `flight = some _`; with `BUSY = 0` the other in-flight registers hold no
value (R35, log 11). -/
structure Engine where
  ring : HistRing
  flight : Option Flight
  port : Port
deriving DecidableEq, Repr

/-- What the host can do (R173, R177, R178, R180); it has no other move (R175). -/
inductive HostAct where
  /-- Deliver one packet on instance `n`'s port with a launch memory, as soon as the port takes it (R8, R177). -/
  | issue (n : Nat) (words : List Nat) (launch : Launch)
  /-- Write one byte of memory (R173). -/
  | store (addr : Nat) (b : Octet)
  /-- Wait for instance `n`'s completion (R178). -/
  | await (n : Nat)
  /-- Pull the platform's reset input (R180). -/
  | hardReset
deriving DecidableEq, Repr

/-- Which agent takes the next step (R65: any order). For an instance, `hold` has bit `i` set if byte `i` of those the
step would store stays on its way when the step ends (R58; log 7). -/
inductive Turn where
  | host
  | engine (n : Nat) (hold : BitVec 4)
deriving DecidableEq, Repr

/-- The state: the platform's and host's inputs to the step, and every instance (R38). -/
structure State where
  /-- The parameters of R6; no step writes them. -/
  cfg : Config
  /-- The memory behind the memory port (R50). -/
  mem : Memory
  /-- The instances, by number (R171). -/
  engines : List Engine
  /-- The host's remaining acts, in order. -/
  host : List HostAct
  /-- The turns already settled, first one next (log 6). -/
  turns : List Turn
  /-- The instance whose turn is being taken. -/
  cur : Nat
  /-- The `hold` of the turn being taken. -/
  hold : BitVec 4
  /-- A hardware reset has ended a command that was not complete, or taken its packet off the port: the run can no longer
  be over (R190, U17; log 13). -/
  cut : Bool
deriving DecidableEq, Repr

/-- Why the machine stops with a fault. The hardware raises none (R160); these are the two contract violations R163 calls
"stuck". The model's run ends where an instance without a step is given a turn. -/
inductive Fault where
  /-- R163 V1, R61: instance `inst`'s step reads `addr`, outside the readable set. Raised by `iterate`. Safe: nothing is
  claimed of the run from there on. -/
  | stuckRead (inst addr : Nat)
  /-- R163 V2, R61: instance `inst`'s step writes a sample at `addr`, some byte of it outside the writable set. Raised by
  `iterate`. Safe, as `stuckRead`. -/
  | stuckWrite (inst addr : Nat)
deriving DecidableEq, Repr

/-- Why a step is given no meaning. -/
inductive Refusal where
  /-- No meaning yet for this instruction: raised by a refused arm of `exec` only (there is none). Safe. -/
  | notModelled (mnemonic : String)
  /-- R163 V4, R88: the words on the port are no command. Raised by `step` at an instance's turn. Safe: R88 refuses it. -/
  | invalidCommand (r : Reject)
  /-- R163 V5, R177: a command for an instance that is busy. Raised by the meanings when run on a busy instance, which no
  `step` does, since the port takes nothing while busy. Safe (log 14). -/
  | busy (inst : Nat)
  /-- There is no instance of this number (R171). Raised by the meanings and by the host's `issue` and `await`. Safe
  (log 8). -/
  | noSuchInstance (inst : Nat)
  /-- The host's store names an address that is not of `ADDR_W` bits (R50). Raised by the host's `store`. Safe (log 8). -/
  | noSuchAddress (addr : Nat)
  /-- R8: what the host would deliver to instance `inst` is not one packet. Raised by the host's `issue`. Safe (log 9). -/
  | notOnePacket (inst : Nat)
deriving DecidableEq, Repr

/-- `H` and `WP` after reset (R36). -/
def HistRing.fresh : HistRing where
  hist := Vector.replicate histCap fill
  wp := wpInit

/-- A launch memory that declares nothing (log 10). -/
def Launch.none : Launch where
  readable := []
  writable := []

/-- A port with nothing on it. -/
def Port.empty : Port where
  words := []
  launch := Launch.none

/-- An instance after hardware reset: fresh, idle, no command in progress (R36, R180). -/
def Engine.fresh : Engine where
  ring := HistRing.fresh
  flight := .none
  port := Port.empty

/-- The machine right after hardware reset (R36, R180, R181): every instance fresh and idle; nothing listed in memory, no
host act and no turn settled (log 4, 6, 8). -/
def State.reset : State where
  cfg := Config.chip
  mem := []
  engines := List.replicate Config.chip.nInst Engine.fresh
  host := []
  turns := []
  cur := 0
  hold := 0
  cut := false

end Sys2Proof.Machine
end

