-- ==== Sys2Proof/Machine/Ops.lean ====
section
/-! DEFINITION. The named operations over memory, launch memory, instances and turns. The spec describes no exception
(R160, R164, R165) and so no operation takes one. -/

namespace Sys2Proof.Machine

/-! ### Memory (R50, R55) -/

/-- What an address that memory does not list reads as. The spec gives no contents before a write: DESIGN CHOICE, unsafe
(log 4). -/
abbrev unlisted : Octet := 0x00

/-- The byte at an address (R52). -/
def Memory.read : Memory → Nat → Octet
  | [], _ => unlisted
  | c :: m, a => if c.1 = a then c.2 else Memory.read m a

/-- `m` with `c` in front, unless `c` holds what an unlisted address reads as. -/
def Memory.push (c : Host.Cell) (m : Memory) : Memory := if c.2 = unlisted then m else c :: m

/-- Store one byte, keeping the canonical form. Of racing stores to one byte the latest is what it then holds: the model's
choice among U5's values (R65, R72; log 21). -/
def Memory.write : Memory → Nat → Octet → Memory
  | [], a, b => Memory.push (a, b) []
  | c :: m, a, b =>
    if a < c.1 then Memory.push (a, b) (c :: m)
    else if a = c.1 then Memory.push (a, b) m
    else c :: Memory.write m a b

/-- Store several bytes, in the order listed. -/
def Memory.storeAll (m : Memory) : List Host.Cell → Memory
  | [] => m
  | c :: cs => Memory.storeAll (m.write c.1 c.2) cs

/-- The canonical form: addresses strictly rising, no byte equal to `unlisted`. -/
abbrev Memory.Wf (m : Memory) : Prop :=
  m.Pairwise (fun c d => c.1 < d.1) ∧ ∀ c ∈ m, c.2 ≠ unlisted

/-! ### Launch memory (R60, R61) -/

/-- The address is one of the region's. -/
def Region.has (r : Region) (a : Nat) : Bool := decide (r.base ≤ a) && decide (a < r.base + r.len)

/-- The address is in the readable set (R61). -/
def Launch.canRead (l : Launch) (a : Nat) : Bool := l.readable.any fun r => r.has a

/-- The address is in the writable set (R61). -/
def Launch.canWrite (l : Launch) (a : Nat) : Bool := l.writable.any fun r => r.has a

/-- A launch memory that declares every byte readable and writable. -/
def Launch.all (aw : Nat) : Launch where
  readable := [⟨0, 2 ^ aw⟩]
  writable := [⟨0, 2 ^ aw⟩]

/-! ### Bytes on their way (R58, R69) -/

/-- The bytes a step stores: those whose position, counted from `i`, is not marked in `hold`. -/
def landing (hold : BitVec 4) : Nat → List Host.Cell → List Host.Cell
  | _, [] => []
  | i, c :: cs => if hold.getLsbD i then landing hold (i + 1) cs else c :: landing hold (i + 1) cs

/-- The bytes that stay on their way: those whose position, counted from `i`, is marked in `hold`. -/
def lagging (hold : BitVec 4) : Nat → List Host.Cell → List Host.Cell
  | _, [] => []
  | i, c :: cs => if hold.getLsbD i then c :: lagging hold (i + 1) cs else lagging hold (i + 1) cs

/-! ### Instances (R171, R177) -/

/-- `BUSY` (R35, R177). -/
def Engine.busy (e : Engine) : Bool := e.flight.isSome

/-- Idle, with no packet waiting on the port: the port can take one, and the command issued last is complete or was ended
by a hardware reset (R177, R178). -/
def Engine.free (e : Engine) : Bool := e.flight.isNone && e.port.words.isEmpty

/-- Replace instance `n`. -/
def State.setEngine (s : State) (n : Nat) (e : Engine) : State := { s with engines := s.engines.set n e }

/-- The effect of RESET on an instance (R100): history filled, `WP_INIT`, idle. The port is not touched. -/
def Engine.clear (e : Engine) : Engine := { e with ring := HistRing.fresh, flight := none }

/-- Run `f` on the instance whose turn it is, if there is one and it is idle; the port accepts nothing while it is busy
(R177). -/
def State.onIdle (s : State) (f : Engine → Host.Outcome State Fault Refusal) : Host.Outcome State Fault Refusal :=
  match s.engines[s.cur]? with
  | none => .refused (.noSuchInstance s.cur)
  | some e => if e.busy then .refused (.busy s.cur) else f e

/-- An in-flight command whose count is 0 and whose bytes have all landed is complete: `BUSY <- 0` (R110, R178). -/
def Flight.settle (f : Flight) : Option Flight := if f.rem = 0 ∧ f.out = [] then none else some f

/-! ### Turns (log 6) -/

/-- The first instance, counting from `n`, that is busy or has a packet to accept. -/
def firstWorking : Nat → List Engine → Option Nat
  | _, [] => none
  | n, e :: es => if e.free then firstWorking (n + 1) es else some n

/-- The turn taken when none is settled (log 6): the first instance with work, else the host if it has an act, else
nobody. -/
def State.defaultTurn (s : State) : Option Turn :=
  match firstWorking 0 s.engines with
  | some n => some (.engine n 0)
  | none => if s.host.isEmpty then none else some .host

end Sys2Proof.Machine
end

