-- ==== Sys2Proof/Machine/Operands.lean ====
section
/-! DEFINITION. Operand assembly (R84), address arithmetic (R52 to R54) and the bytes of a sample (R55). -/

namespace Sys2Proof.Machine

/-- `zext_N(v)`: the `n`-bit pattern `v` read unsigned (R12). -/
def zext (n v : Nat) : Nat := v % 2 ^ n

/-- `sext_N(v)`: the `n`-bit pattern `v` read as two's complement (R12). -/
def sext (n v : Nat) : Int :=
  if v % 2 ^ n < 2 ^ (n - 1) then (v % 2 ^ n : Nat) else (v % 2 ^ n : Nat) - (2 : Int) ^ n

/-- `x mod 2^ADDR_W`, the least non-negative residue (R12, R54). -/
def wrap (aw : Nat) (x : Int) : Nat := (x % (2 : Int) ^ aw).toNat

/-- `SP <- (SP + SS) mod 2^ADDR_W` (R110). -/
def nextSp (aw sp : Nat) (ss : Int) : Nat := wrap aw (sp + ss)

/-- `DP <- (DP + 4 * DS) mod 2^ADDR_W` (R110): the output stride counts samples (R53). -/
def nextDp (aw dp : Nat) (ds : Int) : Nat := wrap aw (dp + sampleBytes * ds)

/-- `SRC_i = (SRC + i * sext(SSTRIDE)) mod 2^ADDR_W`, the address of octet `i` of a TRANSLATE (R52). -/
def srcAddr (aw src sstride i : Nat) : Nat := wrap aw (src + i * sext aw sstride)

/-- `DST_i = (DST + i * 4 * sext(DSTRIDE)) mod 2^ADDR_W`, the address of sample `i` of a TRANSLATE (R53). -/
def dstAddr (aw dst dstride i : Nat) : Nat := wrap aw (dst + i * sampleBytes * sext aw dstride)

/-- The address of byte `k` of a sample at `dp` (R54). -/
def byteAddr (aw dp k : Nat) : Nat := wrap aw (dp + k)

/-- Byte `k` of a sample word, little-endian (R55). -/
def sampleByte (w : BitVec 32) (k : Nat) : Octet := w.extractLsb' (8 * k) 8

/-- The four byte stores of a sample write (R53, R55). -/
def sampleCells (aw dp : Nat) (w : BitVec 32) : List Host.Cell :=
  (List.range sampleBytes).map fun k => (byteAddr aw dp k, sampleByte w k)

end Sys2Proof.Machine
end

