-- ==== Sys2Proof/Machine/Calc.lean ====
section
/-! DEFINITION. The datapath: the coefficient table (R27), the table index (R131, R132), the 16-term sum (R133), the
step on the ring (R112), and the conversion of the sum to the sample (R141). -/

namespace Sys2Proof.Machine

/-- `f 0 + f 1 + ... + f (n-1)`, added in that order from 0 (R133, R135). -/
def sumTo : Nat → (Nat → Int) → Int
  | 0, _ => 0
  | n + 1, f => sumTo n f + f n

/-- `sgn(b)`, the value of a modulation bit (R27). -/
def sgn (b : Bool) : Int := if b then 1 else -1

/-- `TAPS[n]` (R6). -/
def tapAt (c : Config) (n : Nat) : Int := c.taps.getD n 0

/-- `CTAB[k][v]` (R27): bit `j` of the octet at lag `k` has age `8*k + j`. -/
def ctab (c : Config) (k : Nat) (v : Octet) : Int :=
  sumTo octetBits fun j => sgn (v.getLsbD j) * tapAt c (octetBits * k + j)

/-- `rev8(v)`: the octet with its bits in reverse order (R131). -/
def rev8 (v : Octet) : Octet := v.reverse

/-- `idx(v, ord)`: the column looked up for a slot value (R132). -/
def idx (v : Octet) : BitOrder → Octet
  | .msbf => v
  | .lsbf => rev8 v

/-- `H[i]` (R20, R25). -/
def slotAt (h : Vector Octet histCap) (i : RingPos) : Octet := h[i.toNat]'i.isLt

/-- `H[i] <- v`. -/
def putSlot (h : Vector Octet histCap) (i : RingPos) (v : Octet) : Vector Octet histCap :=
  h.set i.toNat v i.isLt

/-- The octet at lag `k` when slot `j` was the last written (R130). -/
def atLag (h : Vector Octet histCap) (j : RingPos) (k : Nat) : Octet := slotAt h (j - BitVec.ofNat 4 k)

/-- CALC(`j`, `ord`) (R133). The accumulator is an unbounded integer (R134, log 15). -/
def calcSum (c : Config) (h : Vector Octet histCap) (j : RingPos) (ord : BitOrder) : Int :=
  sumTo nLag fun k => ctab c k (idx (atLag h j k) ord)

/-- What STEP leaves in the ring (R112): the raw octet in slot `WP` (R23), `WP` advanced mod 16 (R21). -/
def HistRing.push (r : HistRing) (o : Octet) : HistRing where
  hist := putSlot r.hist r.wp o
  wp := r.wp + 1

/-- What STEP(`o`, `ord`) returns (R112): the sum over the history after the write, the slot just written at lag 0. -/
def HistRing.acc (c : Config) (r : HistRing) (o : Octet) (ord : BitOrder) : Int :=
  calcSum c (r.push o).hist r.wp ord

/-- The ring after a sequence of octets, first one first (R118). -/
def HistRing.feed : HistRing → List Octet → HistRing
  | r, [] => r
  | r, o :: os => HistRing.feed (r.push o) os

/-- The accumulators of a sequence of octets stepped in under one bit order (R112). -/
def HistRing.accs (c : Config) (ord : BitOrder) : HistRing → List Octet → List Int
  | _, [] => []
  | r, o :: os => r.acc c o ord :: HistRing.accs c ord (r.push o) os

/-! ### I2F (R141) -/

/-- `p`, the index of the highest set bit of `|a|`. -/
def i2fTop (a : Int) : Nat := a.natAbs.log2

/-- `E`, the biased exponent. -/
def i2fExp (frac : Nat) (a : Int) : Nat := i2fTop a + 127 - frac

/-- `F`, the fraction without its leading 1. -/
def i2fFrac (a : Int) : Nat := a.natAbs * 2 ^ 23 / 2 ^ i2fTop a % 2 ^ 23

/-- `I2F(a)`: the binary32 word equal to `a * 2^(-FRAC)` (R141; its domain is R142's, log 16). -/
def i2f (frac : Nat) (a : Int) : BitVec 32 :=
  if a = 0 then 0
  else BitVec.ofBool (decide (a < 0)) ++ BitVec.ofNat 8 (i2fExp frac a) ++ BitVec.ofNat 23 (i2fFrac a)

end Sys2Proof.Machine
end

