-- ==== Sys2Proof/Machine/Translate.lean ====
section
/-! DEFINITION. The TRANSLATE command: acceptance, the iteration, and the bytes of a torn sample write. -/

namespace Sys2Proof.Machine

/-- The in-flight registers as TRANSLATE's acceptance loads them (R110, R84). -/
def accepted (aw count src sstride : Nat) (ord : BitOrder) (dst dstride : Nat) : Flight where
  rem := zext aw count
  sp := zext aw src
  dp := zext aw dst
  ss := sext aw sstride
  ds := sext aw dstride
  ord := ord
  out := []

/-- The word the iteration at `f` writes: the octet at `SP` stepped into the ring, the sum converted (R110, R112, R141). -/
def sampleOf (s : State) (e : Engine) (f : Flight) : BitVec 32 :=
  i2f s.cfg.frac (e.ring.acc s.cfg (s.mem.read f.sp) f.ord)

/-- The four byte stores of the iteration at `f` (R53, R55). -/
def storesOf (s : State) (e : Engine) (f : Flight) : List Host.Cell :=
  sampleCells s.cfg.addrW f.dp (sampleOf s e f)

/-- The in-flight registers after an iteration that leaves `out` on its way (R110). -/
def Flight.advance (f : Flight) (aw : Nat) (out : List Host.Cell) : Flight :=
  { f with rem := f.rem - 1, sp := nextSp aw f.sp f.ss, dp := nextDp aw f.dp f.ds, out := out }

/-- The state after the iteration at `f` of instance `s.cur` (R110): the octet read as the latest store to its byte left
it, which for a raced byte is the model's choice among U5's values (R65, R72; log 21), the ring stepped, the sample's bytes
stored but for those `s.hold` keeps on their way (R58), the registers advanced, `BUSY <- 0` when all is done. -/
def iterated (s : State) (e : Engine) (f : Flight) : State :=
  State.setEngine { s with mem := s.mem.storeAll (landing s.hold 0 (storesOf s e f)) } s.cur
    { e with
      ring := e.ring.push (s.mem.read f.sp)
      flight := (f.advance s.cfg.addrW (lagging s.hold 0 (storesOf s e f))).settle }

/-- One turn of the loop `while REM != 0` (R110). The read is checked before the write, the four bytes of the write
together (R164); an access outside the launch memory leaves the instance without a step (R61). -/
def iterate (s : State) (e : Engine) (f : Flight) : Host.Outcome State Fault Refusal :=
  if f.rem = 0 then .next (s.setEngine s.cur { e with flight := none })
  else if e.port.launch.canRead f.sp = false then .fault (.stuckRead s.cur f.sp)
  else if (storesOf s e f).all (fun c => e.port.launch.canWrite c.1) = false then .fault (.stuckWrite s.cur f.dp)
  else .next (iterated s e f)

/-- The bytes of a torn sample reach memory, but for those `s.hold` keeps on their way once more (R58): the write is
complete before the next read is made (R63). -/
def drained (s : State) (e : Engine) (f : Flight) : State :=
  State.setEngine { s with mem := s.mem.storeAll (landing s.hold 0 f.out) } s.cur
    { e with flight := ({ f with out := lagging s.hold 0 f.out }).settle }

/-- TRANSLATE (R110), on the instance whose turn it is: accepted, and its first iteration done in the same step; a step
for each octet (R9, log 5). With `COUNT = 0` it is complete at once (R113). -/
def execTranslate (count src sstride : Nat) (ord : BitOrder) (dst dstride : Nat) (s : State) :
    Host.Outcome State Fault Refusal :=
  s.onIdle fun e => iterate s e (accepted s.cfg.addrW count src sstride ord dst dstride)

end Sys2Proof.Machine
end

