-- ==== Sys2Proof/Machine/Agents.lean ====
section
/-! DEFINITION. What each agent does at its turn: the host's acts (R173 to R178, R180), and what an instance has to do. -/

namespace Sys2Proof.Machine

/-- Every instance into the state of hardware reset, no command in progress (R180). Memory keeps what has landed. A command
that was in flight or waiting on a port is not complete and never will be: that is remembered (R190). -/
def State.hardReset (s : State) : State :=
  { s with engines := s.engines.map fun _ => Engine.fresh, cut := s.cut || !s.engines.all Engine.free }

/-- Put words and a launch memory on instance `n`'s port. -/
def State.deliver (s : State) (n : Nat) (e : Engine) (words : List Nat) (launch : Launch) : State :=
  s.setEngine n { e with port := { words := words, launch := launch } }

/-- The host's turn: its next act, or nothing. An act that must wait stays where it is (R177, R178); the port takes one
packet at a time (R8). -/
def hostTurn (s : State) : Host.Outcome State Fault Refusal :=
  match s.host with
  | [] => .next s
  | .issue n words launch :: acts =>
    match s.engines[n]? with
    | none => .refused (.noSuchInstance n)
    | some e =>
      if e.free = false then .next s
      else if onePacket words then .next (State.deliver { s with host := acts } n e words launch)
      else .refused (.notOnePacket n)
  | .store a b :: acts =>
    if a < 2 ^ s.cfg.addrW then .next { s with host := acts, mem := s.mem.write a b }
    else .refused (.noSuchAddress a)
  | .await n :: acts =>
    match s.engines[n]? with
    | none => .refused (.noSuchInstance n)
    | some e => if e.free then .next { s with host := acts } else .next s
  | .hardReset :: acts => .next (State.hardReset { s with host := acts })

/-- What an instance has to do at its turn. -/
inductive Work where
  /-- Nothing: idle with nothing on the port (R172), or no such instance. -/
  | idle
  /-- Bytes of a torn sample are on their way (R58, R63). -/
  | drain (e : Engine) (f : Flight)
  /-- An iteration of the TRANSLATE in flight (R110). -/
  | iterate (e : Engine) (f : Flight)
  /-- A command to accept, and the state with its packet taken off the port. -/
  | accept (i : Instr) (s : State)
  /-- Words that are no command (R88). -/
  | reject (r : Reject)

/-- The instance `s.cur` with its packet taken off its port. -/
def State.takePacket (s : State) (e : Engine) : State :=
  s.setEngine s.cur { e with port := { e.port with words := [] } }

/-- What the words on the port of an idle instance ask for (R8, R87, R92): the packet is consumed as it is accepted. -/
def portWork (s : State) (e : Engine) : Work :=
  match e.port.words with
  | [] => .idle
  | w :: ws =>
    match decode s.cfg.addrW (w :: ws) with
    | .ok i [] => .accept i (s.takePacket e)
    | .ok _ (_ :: _) => .reject .extraWords
    | .rejected r => .reject r

/-- What instance `s.cur` has to do. -/
def State.work (s : State) : Work :=
  match s.engines[s.cur]? with
  | none => .idle
  | some e =>
    match e.flight with
    | none => portWork s e
    | some f => if f.out = [] then .iterate e f else .drain e f

end Sys2Proof.Machine
end

