-- ==== Sys2Proof/Machine/Reset.lean ====
section
/-! DEFINITION. The RESET command. -/

namespace Sys2Proof.Machine

/-- RESET (R100), on the instance whose turn it is: one atomic step, no memory access. -/
def execReset (s : State) : Host.Outcome State Fault Refusal :=
  s.onIdle fun e => .next (s.setEngine s.cur e.clear)

end Sys2Proof.Machine
end

