-- ==== Sys2Proof/Machine/Turns.lean ====
section
/-! DEFINITION. The turn of each agent, whole: an instance's turn fetches from its command port and executes. -/

namespace Sys2Proof.Machine

/-- An instance's turn: bytes of a torn sample land, or the TRANSLATE in flight does one iteration, or the packet on the
port is decoded and executed. -/
def engineTurn (s : State) : Host.Outcome State Fault Refusal :=
  match s.work with
  | .idle => .next s
  | .drain e f => .next (drained s e f)
  | .iterate e f => iterate s e f
  | .accept i s' => exec i s'
  | .reject r => .refused (.invalidCommand r)

/-- Agent `t` takes its turn. -/
def takeTurn (s : State) : Turn → Host.Outcome State Fault Refusal
  | .host => hostTurn s
  | .engine n hold => engineTurn { s with cur := n, hold := hold }

end Sys2Proof.Machine
end

