-- ==== Sys2Proof/Machine/Step.lean ====
section
/-! DEFINITION. One step of the machine: one agent takes its turn. -/

namespace Sys2Proof.Machine

/-- One step: the agent of the first settled turn, or of the default one, moves; with no agent left to move the machine
stays as it is (R172, R190). -/
def step (s : State) : Host.Outcome State Fault Refusal :=
  match s.turns with
  | t :: ts => takeTurn { s with turns := ts } t
  | [] =>
    match s.defaultTurn with
    | some t => takeTurn s t
    | none => .next s

/-- `s` with instance 0 idle, the packet whose bits are the low `nbits` of `w` on its port, every byte of memory declared
readable and writable for it, and the next turn instance 0's: the very next step accepts and executes it (log 12). -/
def State.withFetchWord (s : State) (nbits w : Nat) : State :=
  match s.engines with
  | [] => s
  | e :: es =>
    { s with
      engines :=
        { e with
          flight := none
          port := { words := wordsOfBits s.cfg.addrW (w % 2 ^ nbits), launch := Launch.all s.cfg.addrW } } :: es
      turns := .engine 0 0 :: s.turns }

end Sys2Proof.Machine
end

