-- ==== Sys2Proof/Machine/Asm.lean ====
section
/-! DEFINITION. The textual form of a command stream, one command per line (R90). -/

namespace Sys2Proof.Machine

/-- What a line of a command stream holds: nothing, a command with the instance it is issued to, or no command (log 17). -/
inductive AsmLine where
  | blank
  | command (inst : Nat) (i : Instr)
  | malformed
deriving DecidableEq, Repr

/-- The value of a hexadecimal digit: its place in the row of the sixteen digits, in either case of the letters (R90;
log 17). -/
def hexDigit (c : Char) : Option Nat := "0123456789ABCDEF".toList.idxOf? c.toUpper

/-- The value of a row of digits below `base`, most significant first, after a number `acc`. -/
def digitsFrom (base : Nat) : Nat → List Char → Option Nat
  | acc, [] => some acc
  | acc, c :: cs =>
    match hexDigit c with
    | some d => if d < base then digitsFrom base (base * acc + d) cs else none
    | none => none

/-- An unsigned numeral, decimal or `0x` hexadecimal (R90). -/
def numeral : List Char → Option Nat
  | [] => none
  | '0' :: 'x' :: c :: cs => digitsFrom 16 0 (c :: cs)
  | c :: cs => digitsFrom 10 0 (c :: cs)

/-- An unsigned operand: a numeral that fits `aw` bits (R83, R90). -/
def asmUnsigned (aw : Nat) (t : List Char) : Option Nat :=
  match numeral t with
  | some v => if v < 2 ^ aw then some v else none
  | none => none

/-- A stride: a leading `-` is allowed and is encoded in two's complement (R90). -/
def asmSigned (aw : Nat) : List Char → Option Nat
  | '-' :: t =>
    match numeral t with
    | some v => if v ≤ 2 ^ (aw - 1) then some ((2 ^ aw - v) % 2 ^ aw) else none
    | none => none
  | t => asmUnsigned aw t

/-- The keywords of the bit order (R90). -/
def asmOrder (t : List Char) : Option BitOrder :=
  if t = ['M', 'S', 'B', 'F'] then some .msbf
  else if t = ['L', 'S', 'B', 'F'] then some .lsbf
  else none

/-- The line without its comment: `;` starts one (R90). -/
def withoutComment : List Char → List Char
  | [] => []
  | c :: cs => if c = ';' then [] else c :: withoutComment cs

/-- A word collected so far, as a token unless it is empty. -/
def tokenOf (w : List Char) : List (List Char) := if w = [] then [] else [w]

/-- Cut into words at blanks; a comma is a word of its own, and a colon ends one. -/
def tokensFrom : List Char → List Char → List (List Char)
  | w, [] => tokenOf w
  | w, c :: cs =>
    if c = ' ' ∨ c = '\t' then tokenOf w ++ tokensFrom [] cs
    else if c = ',' then tokenOf w ++ [','] :: tokensFrom [] cs
    else if c = ':' then (w ++ [':']) :: tokensFrom [] cs
    else tokensFrom (w ++ [c]) cs

/-- The instance an `E<n>:` prefix names (R90). -/
def asmPrefix : List Char → Option Nat
  | 'E' :: t => if t.getLast? = some ':' ∧ t.dropLast ≠ [] then digitsFrom 10 0 t.dropLast else none
  | _ => none

/-- The command a line's words after its prefix name (R90). -/
def asmCommand (aw : Nat) : List (List Char) → Option Instr
  | [m] => if m = ['R', 'E', 'S', 'E', 'T'] then some .reset else none
  | [m, count, [','], src, [','], sstride, [','], ord, [','], dst, [','], dstride] =>
    if m = ['T', 'R', 'A', 'N', 'S', 'L', 'A', 'T', 'E'] then
      match asmUnsigned aw count, asmUnsigned aw src, asmSigned aw sstride, asmOrder ord, asmUnsigned aw dst,
        asmSigned aw dstride with
      | some c, some a, some p, some o, some b, some q => some (.translate c a p o b q)
      | _, _, _, _, _, _ => none
    else none
  | _ => none

/-- One line of a command stream; without a prefix the instance is `E0` (R90). -/
def asmLine (aw : Nat) (line : List Char) : AsmLine :=
  match tokensFrom [] (withoutComment line) with
  | [] => .blank
  | t :: ts =>
    match (if t.getLast? = some ':' then (asmPrefix t, asmCommand aw ts) else (some 0, asmCommand aw (t :: ts))) with
    | (some n, some i) => .command n i
    | _ => .malformed

end Sys2Proof.Machine
end

