-- ==== Sys2Proof/Safety.lean ====
section
/-! DEFINITION. The terms statements about the machine use: the invariant of a legal state, the end of a run (R190), launch
memories that do not meet (R65, R72), the value of a sample word (R141), and a whole TRANSLATE in closed form (R52, R53). -/

namespace Sys2Proof.Machine

/-! ### The invariant -/

/-- What holds of the in-flight registers of a running TRANSLATE: each fits its `ADDR_W` bits (R35), at most one sample
is on its way out (R69), to distinct bytes of the address space that the command may write (R54, R61), and the command is
not complete (R35, R178). -/
def Flight.ok (aw : Nat) (l : Launch) (f : Flight) : Bool :=
  decide (f.rem < 2 ^ aw) && decide (f.sp < 2 ^ aw) && decide (f.dp < 2 ^ aw) &&
    decide (FitsSigned aw f.ss) && decide (FitsSigned aw f.ds) &&
    decide (f.out.length ≤ sampleBytes) && decide ((f.out.map (·.1)).Nodup) &&
    f.out.all (fun c => decide (c.1 < 2 ^ aw) && l.canWrite c.1) && decide (f.rem ≠ 0 ∨ f.out ≠ [])

/-- What holds of an instance: its port holds nothing or one packet (R8), nothing while the instance is busy (R177), and
the registers of a command in flight are legal. -/
def Engine.ok (aw : Nat) (e : Engine) : Bool :=
  (e.port.words.isEmpty || (onePacket e.port.words && e.flight.isNone)) && e.flight.all (Flight.ok aw e.port.launch)

/-- A legal state: the parameters meet R6; memory is in its form and inside the address space (R50); there are `N_INST`
instances (R171), each of them legal. -/
abbrev State.Inv (s : State) : Prop :=
  s.cfg.Wf ∧ s.mem.Wf ∧ (∀ c ∈ s.mem, c.1 < 2 ^ s.cfg.addrW) ∧ s.engines.length = s.cfg.nInst ∧
    ∀ e ∈ s.engines, e.ok s.cfg.addrW = true

/-! ### Runs -/

/-- `k` steps of the machine, ending at the first fault or refusal (the host's `Host.Core.run`, written on the machine's own
types). -/
def runSteps : Nat → State → Host.Outcome State Fault Refusal
  | 0, s => .next s
  | k + 1, s =>
    match step s with
    | .next t => runSteps k t
    | .fault r => .fault r
    | .refused r => .refused r

/-- A command is among what the host has left to do. -/
def HostAct.issues : HostAct → Bool
  | .issue _ _ _ => true
  | .store _ _ => false
  | .await _ => false
  | .hardReset => false

/-- The run is over (R190): every instance is idle and every command of the run is complete, so none is left to be issued,
none waits on a port, and none was ended by a hardware reset. Other acts and turns may be left. -/
def State.over (s : State) : Bool := s.engines.all Engine.free && !s.host.any HostAct.issues && !s.cut

/-! ### A torn write -/

/-- Of the bytes a step would store, those whose bit in `hold` is `b`, in their order (R58, log 7). -/
def marked (hold : BitVec 4) (b : Bool) (cs : List Host.Cell) : List Host.Cell :=
  (cs.zipIdx.filter fun c => hold.getLsbD c.2 == b).map (·.1)

/-! ### Launch memories that do not meet -/

/-- Two regions share no address. -/
def Region.apart (r q : Region) : Bool :=
  decide (r.len = 0) || decide (q.len = 0) || decide (r.base + r.len ≤ q.base) || decide (q.base + q.len ≤ r.base)

/-- No region of the one list shares an address with a region of the other. -/
def regionsApart (rs qs : List Region) : Bool := rs.all fun r => qs.all fun q => r.apart q

/-- Neither command may write a byte the other may read or write: no race between them (R65, R72). -/
def Launch.apart (l k : Launch) : Bool :=
  regionsApart l.writable k.writable && regionsApart l.writable k.readable && regionsApart l.readable k.writable

/-! ### The value of a sample word -/

/-- Sign, biased exponent and fraction of a binary32 word: bit 31, bits 30:23, bits 22:0 (R141, G1). -/
def f32Sign (w : BitVec 32) : Bool := w.getLsbD 31
def f32Exp (w : BitVec 32) : Nat := (w.extractLsb' 23 8).toNat
def f32Frac (w : BitVec 32) : Nat := (w.extractLsb' 0 23).toNat

/-- The rational a binary32 word stands for; an infinity or a NaN (exponent 255) stands for none (G1, log 16). -/
def f32Value (w : BitVec 32) : Option ℚ :=
  if f32Exp w = 255 then none
  else if f32Exp w = 0 then some ((if f32Sign w then -1 else 1) * (f32Frac w : ℚ) * (2 : ℚ) ^ (-149 : ℤ))
  else some ((if f32Sign w then -1 else 1) * ((2 ^ 23 + f32Frac w : Nat) : ℚ) * (2 : ℚ) ^ ((f32Exp w : ℤ) - 150))

/-! ### A whole TRANSLATE -/

/-- The operands of a TRANSLATE. -/
structure Job where
  count : Nat
  src : Nat
  sstride : Nat
  ord : BitOrder
  dst : Nat
  dstride : Nat
deriving DecidableEq, Repr

/-- The command. -/
def Job.instr (j : Job) : Instr := .translate j.count j.src j.sstride j.ord j.dst j.dstride

/-- The ring and the memory after `i` iterations, in step order, each read before its write (R63), at the addresses of R52
and R53. -/
def Job.after (c : Config) (j : Job) : Nat → HistRing × Memory → HistRing × Memory
  | 0, x => x
  | i + 1, x =>
    let y := j.after c i x
    let o := y.2.read (srcAddr c.addrW j.src j.sstride i)
    (y.1.push o,
      y.2.storeAll (sampleCells c.addrW (dstAddr c.addrW j.dst j.dstride i) (i2f c.frac (y.1.acc c o j.ord))))

/-- Address of byte `k` of sample `i` (R53, R54). -/
def Job.outAddr (aw : Nat) (j : Job) (i k : Nat) : Nat := byteAddr aw (dstAddr aw j.dst j.dstride i) k

/-- The accesses of iteration `i` are inside the launch memory (R61). -/
abbrev Job.AdmittedAt (aw : Nat) (l : Launch) (j : Job) (i : Nat) : Prop :=
  l.canRead (srcAddr aw j.src j.sstride i) = true ∧ ∀ k, k < sampleBytes → l.canWrite (j.outAddr aw i k) = true

/-- Every access of the TRANSLATE is inside the launch memory (R61, R174 (2)). -/
abbrev Job.Admitted (aw : Nat) (l : Launch) (j : Job) : Prop := ∀ i, i < j.count → j.AdmittedAt aw l i

/-- No sample byte is a source byte, and no two samples share a byte: the layout the source shows (R70, U6, U7). -/
abbrev Job.Clean (aw : Nat) (j : Job) : Prop :=
  (∀ i, i < j.count → ∀ k, k < sampleBytes → ∀ m, m < j.count →
      j.outAddr aw i k ≠ srcAddr aw j.src j.sstride m) ∧
    ∀ i, i < j.count → ∀ k, k < sampleBytes → ∀ m, m < j.count → ∀ q, q < sampleBytes →
      j.outAddr aw i k = j.outAddr aw m q → i = m ∧ k = q

/-- The source octets of the TRANSLATE as they stand in a memory, in stream order. -/
def Job.octets (aw : Nat) (j : Job) (m : Memory) : List Octet :=
  (List.range j.count).map fun i => m.read (srcAddr aw j.src j.sstride i)

end Sys2Proof.Machine
end

