-- ==== Sys2Proof/Certificates/Slice0/Obligations.lean ====
section
/-! DEFINITION. The statements about the engine for the provers, one definition each; each docstring says which rules of
spec/ it formalises. A statement about one step says what the step reads from the memory it starts with and what it leaves
there; for a byte that other agents race for (R65, R72, U5) that is the model's choice (log 21). -/

open Sys2Proof Sys2Proof.Machine

/-! ### Encoding -/

/-- R86: the opcode map. `W0` selects RESET exactly when it is `0x00000001`, TRANSLATE exactly when it agrees with
`0x00000002` under the mask `0xFFFFFEFF` (with `ORD` in bit 8, R85), and every other value is invalid. -/
def Obligations.OpcodeMapIsExact : Prop :=
  ∀ w : BitVec 32,
    (decodeW0 w = .reset ↔ w = 0x00000001) ∧
    (decodeW0 w = .translate .msbf ↔ w = 0x00000002) ∧
    (decodeW0 w = .translate .lsbf ↔ w = 0x00000102) ∧
    ((∃ ord, decodeW0 w = .translate ord) ↔ w &&& 0xFFFFFEFF = 0x00000002) ∧
    ((∃ r, decodeW0 w = .invalid r) ↔ w ≠ 0x00000001 ∧ w &&& 0xFFFFFEFF ≠ 0x00000002)

/-- R88 and R163 V4: at an idle instance's turn, a first word whose `OPC` is unassigned, whose `RSV` is not 0, or
which is RESET with `ORD = 1`, is refused, whatever words follow it. The refusal ends the modelled run (log 19). -/
def Obligations.InvalidWordIsRefused : Prop :=
  ∀ (s : State) (n : Nat) (hold : BitVec 4) (ts : List Turn) (e : Engine) (w : Nat) (ws : List Nat),
    s.turns = .engine n hold :: ts → s.engines[n]? = some e → e.flight = none → e.port.words = w :: ws → w < 2 ^ 32 →
    ((w % 256 ≠ 1 ∧ w % 256 ≠ 2) ∨ w / 512 ≠ 0 ∨ (w % 256 = 1 ∧ w / 256 % 2 = 1)) →
      ∃ r, step s = .refused (.invalidCommand r)

/-- R81 to R85, R87, R92: the decoder reads back every command from its packet, for every `ADDR_W` (R94), every operand
value that fits and whatever words follow, and takes exactly the packet's words. -/
def Obligations.DecodeOfEncode : Prop :=
  ∀ (aw : Nat) (i : Instr) (rest : List Nat), i.wf aw = true → decode aw (encode i ++ rest) = .ok i rest

/-- R92, the other way: what the decoder reads is a well-formed command, and the words it took are that command's
packet. -/
def Obligations.EncodeOfDecode : Prop :=
  ∀ (aw : Nat) (ws rest : List Nat) (i : Instr), decode aw ws = .ok i rest → i.wf aw = true ∧ encode i ++ rest = ws

/-- R83: the default packet as one bit string: `OPC` in bits 7:0, `ORD` in bit 8, COUNT in bits 63:32, SRC in 95:64,
SSTRIDE in 127:96, DST in 159:128, DSTRIDE in 191:160. -/
def Obligations.PacketAsOneBitString : Prop :=
  ∀ (count src ss dst ds : BitVec 32) (ord : Bool),
    decodeTableWord 192
      (0x02 + (if ord then 1 else 0) * 2 ^ 8 + count.toNat * 2 ^ 32 + src.toNat * 2 ^ 64 + ss.toNat * 2 ^ 96 +
        dst.toNat * 2 ^ 128 + ds.toNat * 2 ^ 160) =
      some (.translate count.toNat src.toNat ss.toNat (if ord then .lsbf else .msbf) dst.toNat ds.toNat)

/-- R93: the encoding examples, and R90: their assembly text. -/
def Obligations.EncodingExamples : Prop :=
  decode 32 [0x00000001] = .ok .reset [] ∧
  decode 32 [0x00000002, 0x00000004, 0x00001000, 0x00000001, 0x00002000, 0x00000001] =
    .ok (.translate 4 0x1000 1 .msbf 0x2000 1) [] ∧
  decode 32 [0x00000102, 0x00000003, 0x00001001, 0x00000002, 0x00002004, 0x00000002] =
    .ok (.translate 3 0x1001 2 .lsbf 0x2004 2) [] ∧
  decode 32 [0x00000002, 0x00000004, 0x00001003, 0xFFFFFFFF, 0x0000200C, 0xFFFFFFFF] =
    .ok (.translate 4 0x1003 0xFFFFFFFF .msbf 0x200C 0xFFFFFFFF) [] ∧
  asmLine 32 "TRANSLATE 4, 0x1003, -1, MSBF, 0x200C, -1".toList =
    .command 0 (.translate 4 0x1003 0xFFFFFFFF .msbf 0x200C 0xFFFFFFFF) ∧
  (∀ w ∈ [0x00000000, 0x00000003, 0x00000101, 0x00000202, 0x80000002],
    ∃ r, decodeW0 (BitVec.ofNat 32 w) = .invalid r)

/-! ### The step -/

/-- R80, R87, R177: at an idle instance's turn whose port holds a packet, the step is the packet's command executed, its
words taken off the port; whether the turn was settled or is the default one (the turn order is the model's: log 6).
The second clause is the model's choice (log 9): more words than one packet, which no delivery puts on a port, are refused. -/
def Obligations.StepExecutesThePacket : Prop :=
  (∀ (s : State) (n : Nat) (e : Engine) (i : Instr),
    s.engines[n]? = some e → e.flight = none → decode s.cfg.addrW e.port.words = .ok i [] →
      (∀ hold ts, s.turns = .engine n hold :: ts →
        step s = exec i (State.takePacket { s with turns := ts, cur := n, hold := hold } e)) ∧
      (s.turns = [] → s.defaultTurn = some (.engine n 0) →
        step s = exec i (State.takePacket { s with cur := n, hold := 0 } e))) ∧
  ∀ (s : State) (n : Nat) (hold : BitVec 4) (ts : List Turn) (e : Engine) (i : Instr) (rest : List Nat),
    s.turns = .engine n hold :: ts → s.engines[n]? = some e → e.flight = none →
    decode s.cfg.addrW e.port.words = .ok i rest → rest ≠ [] → step s = .refused (.invalidCommand .extraWords)

/-- R172, R190: an idle instance with nothing on its port does nothing at its turn; when the run is over, and the host has
no act and no turn is left, the machine stays as it is. -/
def Obligations.IdleKeepsItsState : Prop :=
  (∀ (s : State) (n : Nat) (hold : BitVec 4) (ts : List Turn) (e : Engine),
    s.turns = .engine n hold :: ts → s.engines[n]? = some e → e.flight = none → e.port.words = [] →
      step s = .next { s with turns := ts, cur := n, hold := hold }) ∧
  ∀ s : State, s.over = true → s.host = [] → s.turns = [] → step s = .next s

/-- R190: a run that is over stays over, whatever turns and acts are left, and no step of it changes an instance unless the
host pulls the reset input. -/
def Obligations.OverStaysOver : Prop :=
  ∀ s t : State, s.over = true → step s = .next t →
    t.over = true ∧ (s.host.head? ≠ some .hardReset → t.engines = s.engines)

/-- R190, R180, U17: a run in which a hardware reset ended a command, in flight or waiting on a port, is never over from
then on; a hardware reset of instances that are all idle with empty ports ends none. That a packet on a port is lost with it
is the model's (log 13). -/
def Obligations.CutRunIsNeverOver : Prop :=
  (∀ (s t : State) (ts : List Turn) (acts : List HostAct) (n : Nat) (e : Engine),
    s.turns = .host :: ts → s.host = .hardReset :: acts → s.engines[n]? = some e →
    e.flight ≠ none ∨ e.port.words ≠ [] → step s = .next t → t.cut = true) ∧
  (∀ s t : State, s.cut = true → step s = .next t → t.cut = true) ∧
  (∀ s : State, s.cut = true → s.over = false) ∧
  ∀ s t : State, s.cut = false → (∀ e ∈ s.engines, e.flight = none ∧ e.port.words = []) → step s = .next t →
    t.cut = false

/-! ### RESET -/

/-- R100: RESET on an idle instance fills every slot with `0x00`, sets `WP` to 0 and leaves it idle; nothing else of the
machine changes: no memory, no other instance, not even the port. -/
def Obligations.ResetReturnsToFresh : Prop :=
  ∀ (s : State) (e : Engine), s.engines[s.cur]? = some e → e.flight = none →
    exec .reset s =
      .next { s with
        engines :=
          s.engines.set s.cur
            { ring := { hist := Vector.replicate 16 0x00, wp := 0 }, flight := none, port := e.port } }

/-- R101: RESET after RESET changes nothing, so any number of them in a row leaves what one leaves. -/
def Obligations.ResetIsIdempotent : Prop :=
  ∀ (s : State) (e : Engine), s.engines[s.cur]? = some e → e.flight = none →
    ∃ t, exec .reset s = .next t ∧ exec .reset t = .next t

/-- R102: the instance after RESET is the instance after hardware reset, but for what the host has put on its port; so
every later accumulator is the same function of the later octets in both. -/
def Obligations.ResetIsAsFreshlyConstructed : Prop :=
  ∀ (s : State) (e : Engine), s.engines[s.cur]? = some e → e.flight = none →
    ∃ t, exec .reset s = .next t ∧ t.engines[s.cur]? = some { Engine.fresh with port := e.port } ∧
      ∀ e', t.engines[s.cur]? = some e' → ∀ ord os,
        HistRing.accs t.cfg ord e'.ring os = HistRing.accs s.cfg ord HistRing.fresh os

/-- R36: after hardware reset there is an instance, and every instance has all 16 slots `0x00`, `WP = 0` and `BUSY =
0`. An empty port is the model's reading of R180's "no command in progress" (log 13). -/
def Obligations.ResetStateValues : Prop :=
  0 < State.reset.engines.length ∧ State.reset.engines.length = State.reset.cfg.nInst ∧
    ∀ (n : Nat) (e : Engine), State.reset.engines[n]? = some e →
      (∀ i : RingPos, slotAt e.ring.hist i = 0x00) ∧ e.ring.wp = 0 ∧ e.busy = false ∧ e.port.words = []

/-! ### TRANSLATE, one step -/

/-- R113: a TRANSLATE of no octets changes nothing and is complete at once, whatever its other operands. -/
def Obligations.TranslateOfNothing : Prop :=
  ∀ (s : State) (e : Engine) (src ss dst ds : Nat) (ord : BitOrder),
    s.engines[s.cur]? = some e → e.flight = none → exec (.translate 0 src ss ord dst ds) s = .next s

/-- R110, R112, R52 to R55: a TRANSLATE of at least one octet, accepted by an idle instance whose launch memory admits its
first read and write, with no byte held back: the octet at SRC goes into slot `WP`, `WP` advances, the sample of the new
history is stored little-endian at DST; with `COUNT = 1` the command is complete, otherwise the in-flight registers stand
at the next octet. Nothing else changes. That the first iteration is done in the step that accepts the command is the
model's (log 5). -/
def Obligations.TranslateDoesItsFirstOctet : Prop :=
  ∀ (s : State) (e : Engine) (count src ss dst ds : Nat) (ord : BitOrder),
    s.engines[s.cur]? = some e → e.flight = none → (Instr.translate count src ss ord dst ds).wf s.cfg.addrW = true →
    count ≠ 0 → s.hold = 0 → e.port.launch.canRead src = true →
    (∀ k, k < 4 → e.port.launch.canWrite ((dst + k) % 2 ^ s.cfg.addrW) = true) →
      let aw := s.cfg.addrW
      let o := s.mem.read src
      let r : HistRing := { hist := putSlot e.ring.hist e.ring.wp o, wp := e.ring.wp + 1 }
      let w := i2f s.cfg.frac (calcSum s.cfg r.hist e.ring.wp ord)
      exec (.translate count src ss ord dst ds) s =
        .next { s with
          mem := s.mem.storeAll
            [(dst % 2 ^ aw, w.extractLsb' 0 8), ((dst + 1) % 2 ^ aw, w.extractLsb' 8 8),
              ((dst + 2) % 2 ^ aw, w.extractLsb' 16 8), ((dst + 3) % 2 ^ aw, w.extractLsb' 24 8)]
          engines := s.engines.set s.cur
            { ring := r
              flight :=
                if count = 1 then none
                else
                  some
                    { rem := count - 1
                      sp := ((src + sext aw ss) % (2 : Int) ^ aw).toNat
                      dp := ((dst + 4 * sext aw ds) % (2 : Int) ^ aw).toNat
                      ss := sext aw ss
                      ds := sext aw ds
                      ord := ord
                      out := [] }
              port := e.port } }

/-- R110: the iteration of a TRANSLATE in flight, at its instance's turn with no byte held back. One iteration a turn,
`hold`, and what a raced octet reads as are the model's (log 5, log 7, log 21). -/
def Obligations.InFlightDoesItsNextOctet : Prop :=
  ∀ (s : State) (n : Nat) (ts : List Turn) (e : Engine) (f : Flight),
    s.turns = .engine n 0 :: ts → s.engines[n]? = some e → e.flight = some f → f.out = [] → f.rem ≠ 0 →
    e.port.launch.canRead f.sp = true →
    (∀ k, k < 4 → e.port.launch.canWrite (byteAddr s.cfg.addrW f.dp k) = true) →
      let o := s.mem.read f.sp
      let r : HistRing := { hist := putSlot e.ring.hist e.ring.wp o, wp := e.ring.wp + 1 }
      let w := i2f s.cfg.frac (calcSum s.cfg r.hist e.ring.wp f.ord)
      step s =
        .next { s with
          mem := s.mem.storeAll (sampleCells s.cfg.addrW f.dp w)
          engines := s.engines.set n
            { ring := r
              flight :=
                if f.rem = 1 then none
                else
                  some
                    { f with
                      rem := f.rem - 1
                      sp := ((f.sp + f.ss) % (2 : Int) ^ s.cfg.addrW).toNat
                      dp := ((f.dp + 4 * f.ds) % (2 : Int) ^ s.cfg.addrW).toNat }
              port := e.port }
          turns := ts
          cur := n
          hold := 0 }

/-- R58, R110, R112, R84, R52, R53, R69: a TRANSLATE of at least one octet, accepted by an idle instance whose launch memory
admits its first read and write, with any of its first sample's bytes held back: the octet at SRC is stepped in; the bytes
not marked in `hold` are stored and are then what memory holds, the marked ones, and nothing else, are kept with their
addresses, which read as before; the in-flight registers stand at the next octet, and the command is complete only if it had
one octet and no byte is kept. Nothing else changes. That the first iteration is done in the step that accepts the command,
how a torn write is shown, and what a raced octet reads as are the model's (log 5, log 7, log 21). -/
def Obligations.TornSampleWrite : Prop :=
  ∀ (s : State) (e : Engine) (count src ss dst ds : Nat) (ord : BitOrder),
    s.engines[s.cur]? = some e → e.flight = none → (Instr.translate count src ss ord dst ds).wf s.cfg.addrW = true →
    count ≠ 0 → e.port.launch.canRead src = true →
    (∀ k, k < 4 → e.port.launch.canWrite (byteAddr s.cfg.addrW dst k) = true) →
      let aw := s.cfg.addrW
      let w := i2f s.cfg.frac (e.ring.acc s.cfg (s.mem.read src) ord)
      let cs := sampleCells aw dst w
      let m := s.mem.storeAll (marked s.hold false cs)
      exec (.translate count src ss ord dst ds) s =
        .next { s with
          mem := m
          engines := s.engines.set s.cur
            { ring := e.ring.push (s.mem.read src)
              flight :=
                if count = 1 ∧ s.hold = 0 then none
                else
                  some
                    { rem := count - 1
                      sp := nextSp aw src (sext aw ss)
                      dp := nextDp aw dst (sext aw ds)
                      ss := sext aw ss
                      ds := sext aw ds
                      ord := ord
                      out := marked s.hold true cs }
              port := e.port } } ∧
      (s.mem.Wf → 3 ≤ aw → ∀ k, k < 4 →
        let a := byteAddr aw dst k
        (s.hold.getLsbD k = false → m.read a = sampleByte w k ∧ ∀ c ∈ marked s.hold true cs, c.1 ≠ a) ∧
        (s.hold.getLsbD k = true → m.read a = s.mem.read a ∧ (a, sampleByte w k) ∈ marked s.hold true cs))

/-- R58, R110: the iteration of a TRANSLATE in flight, with any of its sample's bytes held back: the octet is stepped in and
the registers advance as with none held; the bytes not marked in `hold` are stored and are then what memory holds, the marked
ones are kept with their addresses, which read as before, and the command is complete only if it was its last octet and none
is kept. How a torn write is shown, by `hold` and `out`, and what a raced octet reads as are the model's (log 7, log 21). -/
def Obligations.TornIterationInFlight : Prop :=
  ∀ (s : State) (n : Nat) (hold : BitVec 4) (ts : List Turn) (e : Engine) (f : Flight),
    s.turns = .engine n hold :: ts → s.engines[n]? = some e → e.flight = some f → f.out = [] → f.rem ≠ 0 →
    e.port.launch.canRead f.sp = true →
    (∀ k, k < 4 → e.port.launch.canWrite (byteAddr s.cfg.addrW f.dp k) = true) →
      let w := i2f s.cfg.frac (e.ring.acc s.cfg (s.mem.read f.sp) f.ord)
      let cs := sampleCells s.cfg.addrW f.dp w
      let m := s.mem.storeAll (marked hold false cs)
      step s =
        .next { s with
          mem := m
          engines := s.engines.set n
            { ring := e.ring.push (s.mem.read f.sp)
              flight :=
                if f.rem = 1 ∧ hold = 0 then none
                else
                  some
                    { f with
                      rem := f.rem - 1
                      sp := nextSp s.cfg.addrW f.sp f.ss
                      dp := nextDp s.cfg.addrW f.dp f.ds
                      out := marked hold true cs }
              port := e.port }
          turns := ts
          cur := n
          hold := hold } ∧
      (s.mem.Wf → 3 ≤ s.cfg.addrW → ∀ k, k < 4 →
        m.read (byteAddr s.cfg.addrW f.dp k) =
          if hold.getLsbD k then s.mem.read (byteAddr s.cfg.addrW f.dp k) else sampleByte w k)

/-- R58, R63: the turn of an instance with bytes of a sample on their way, any of them held back once more: those not marked
in `hold`, by their place in the row of kept bytes, are stored and are then what memory holds; the marked ones are kept, and
their addresses read as before; nothing is read and nothing stepped in, and the command is complete when its last sample's
last byte has landed. How a torn write is shown, by `hold` and `out`, is the model's (log 7). -/
def Obligations.TornSampleLandsPiecemeal : Prop :=
  ∀ (s : State) (n : Nat) (hold : BitVec 4) (ts : List Turn) (e : Engine) (f : Flight),
    s.turns = .engine n hold :: ts → s.engines[n]? = some e → e.flight = some f → f.out ≠ [] →
      let m := s.mem.storeAll (marked hold false f.out)
      let kept := marked hold true f.out
      step s =
        .next { s with
          mem := m
          engines := s.engines.set n
            { ring := e.ring
              flight := if f.rem = 0 ∧ kept = [] then none else some { f with out := kept }
              port := e.port }
          turns := ts
          cur := n
          hold := hold } ∧
      (s.mem.Wf → (f.out.map (·.1)).Nodup → ∀ k c, f.out[k]? = some c →
        m.read c.1 = if hold.getLsbD k then s.mem.read c.1 else c.2)

/-- R63: the bytes of a sample on their way reach memory before the next read: the instance's turn stores them, reads
nothing, steps nothing, and leaves the other in-flight registers; the command whose last sample this was is complete.
That they land in a turn of their own is the model's (log 7). -/
def Obligations.SampleLandsBeforeTheNextRead : Prop :=
  ∀ (s : State) (n : Nat) (ts : List Turn) (e : Engine) (f : Flight),
    s.turns = .engine n 0 :: ts → s.engines[n]? = some e → e.flight = some f → f.out ≠ [] →
      step s =
        .next { s with
          mem := s.mem.storeAll f.out
          engines := s.engines.set n
            { ring := e.ring, flight := if f.rem = 0 then none else some { f with out := [] }, port := e.port }
          turns := ts
          cur := n
          hold := 0 }

/-- R61, R163 V1, R164: a read outside the readable set leaves the instance stuck, whether or not the write would be
admitted: for a TRANSLATE being accepted and for one in flight. Stuck is a fault of the model (log 19). -/
def Obligations.ReadOutsideTheLaunchIsStuck : Prop :=
  (∀ (s : State) (e : Engine) (count src ss dst ds : Nat) (ord : BitOrder),
    s.engines[s.cur]? = some e → e.flight = none → (Instr.translate count src ss ord dst ds).wf s.cfg.addrW = true →
    count ≠ 0 → e.port.launch.canRead src = false →
      exec (.translate count src ss ord dst ds) s = .fault (.stuckRead s.cur src)) ∧
  ∀ (s : State) (n : Nat) (hold : BitVec 4) (ts : List Turn) (e : Engine) (f : Flight),
    s.turns = .engine n hold :: ts → s.engines[n]? = some e → e.flight = some f → f.out = [] → f.rem ≠ 0 →
    e.port.launch.canRead f.sp = false → step s = .fault (.stuckRead n f.sp)

/-- R61, R163 V2, R164: with the read admitted, a sample any of whose four bytes is outside the writable set leaves
the instance stuck: for a TRANSLATE being accepted and for one in flight. Stuck is a fault of the model (log 19). -/
def Obligations.WriteOutsideTheLaunchIsStuck : Prop :=
  (∀ (s : State) (e : Engine) (count src ss dst ds k : Nat) (ord : BitOrder),
    s.engines[s.cur]? = some e → e.flight = none → (Instr.translate count src ss ord dst ds).wf s.cfg.addrW = true →
    count ≠ 0 → e.port.launch.canRead src = true → k < 4 →
    e.port.launch.canWrite (byteAddr s.cfg.addrW dst k) = false →
      exec (.translate count src ss ord dst ds) s = .fault (.stuckWrite s.cur dst)) ∧
  ∀ (s : State) (n k : Nat) (hold : BitVec 4) (ts : List Turn) (e : Engine) (f : Flight),
    s.turns = .engine n hold :: ts → s.engines[n]? = some e → e.flight = some f → f.out = [] → f.rem ≠ 0 →
    e.port.launch.canRead f.sp = true → k < 4 → e.port.launch.canWrite (byteAddr s.cfg.addrW f.dp k) = false →
      step s = .fault (.stuckWrite n f.dp)

/-- The frame of the step that accepts a command (R51, R100, R110, R113, R120): when it answers a next state it leaves the
configuration, the host's acts, the turns, every other instance and its own port; RESET and a TRANSLATE of nothing leave all
of memory. That step does a TRANSLATE's first iteration and no more, which is the model's choice (log 5): so it leaves every
slot but the one `WP` names and stores to no byte but the four at DST. The whole command, which by R110 goes on to `COUNT`
slots and `4*COUNT` bytes, has its frame in `TranslateRunsToCompletion` and `TranslateKeepsItsPromise`, and each later
iteration in `TornIterationInFlight`. -/
def Obligations.CommandFrame : Prop :=
  ∀ (i : Instr) (s t : State), exec i s = .next t →
    t.cfg = s.cfg ∧ t.host = s.host ∧ t.turns = s.turns ∧ t.cur = s.cur ∧ t.hold = s.hold ∧ t.cut = s.cut ∧
    (∀ m, m ≠ s.cur → t.engines[m]? = s.engines[m]?) ∧
    (∃ e e', s.engines[s.cur]? = some e ∧ t.engines[s.cur]? = some e' ∧ e'.port = e.port ∧
      (i ≠ .reset → ∀ x, x ≠ e.ring.wp → slotAt e'.ring.hist x = slotAt e.ring.hist x)) ∧
    (i = .reset → t.mem = s.mem) ∧
    (∀ src ss ord dst ds, i = .translate 0 src ss ord dst ds → t.mem = s.mem ∧ t.engines = s.engines) ∧
    ∀ count src ss ord dst ds, i = .translate count src ss ord dst ds →
      ∀ a, (∀ k, k < sampleBytes → a ≠ byteAddr s.cfg.addrW (zext s.cfg.addrW dst) k) → t.mem.read a = s.mem.read a

/-- R177, R8, R163 V5: a busy instance takes no command: one executed on it is refused; and while an instance is busy, or
idle with a packet it has not accepted on its port, the host that would issue to it waits with its act unspent, and the
waiting packet stays as it is. The refusal and the waiting act are the model's (log 8, log 9, log 14). -/
def Obligations.BusyInstanceTakesNoCommand : Prop :=
  (∀ (s : State) (e : Engine) (f : Flight) (i : Instr),
    s.engines[s.cur]? = some e → e.flight = some f → exec i s = .refused (.busy s.cur)) ∧
  ∀ (s : State) (n : Nat) (e : Engine) (ts : List Turn) (words : List Nat) (launch : Launch) (acts : List HostAct),
    s.turns = .host :: ts → s.host = .issue n words launch :: acts → s.engines[n]? = some e →
    e.flight ≠ none ∨ e.port.words ≠ [] → step s = .next { s with turns := ts }

/-! ### TRANSLATE, the whole command -/

/-- R110, R117, R63: a TRANSLATE of `COUNT >= 1` octets whose accesses the launch memory admits is complete after
exactly `COUNT` turns of its instance (with no other agent moving and no byte held back): ring and memory are those of
`COUNT` iterations in order at the addresses of R52 and R53, the instance is idle, and nothing else has changed. That
`COUNT` turns do it, acceptance being in the first, is the model's (log 5). -/
def Obligations.TranslateRunsToCompletion : Prop :=
  ∀ (s : State) (n : Nat) (e : Engine) (j : Job) (ts : List Turn),
    s.engines[n]? = some e → e.flight = none → j.instr.wf s.cfg.addrW = true → 1 ≤ j.count →
    e.port.words = encode j.instr → j.Admitted s.cfg.addrW e.port.launch →
    s.turns = List.replicate j.count (.engine n 0) ++ ts →
      runSteps j.count s =
        .next { s with
          mem := (j.after s.cfg j.count (e.ring, s.mem)).2
          engines := s.engines.set n
            { ring := (j.after s.cfg j.count (e.ring, s.mem)).1, flight := none,
              port := { words := [], launch := e.port.launch } }
          turns := ts
          cur := n
          hold := 0 }

/-- R176: what a TRANSLATE owes the host at its end, when no sample byte is a source byte and no two samples share
one: all `COUNT` samples stored, sample `i` at `DST + 4*i*DSTRIDE` being the image of the accumulator of octet `i`;
the ring is that of the octets stepped in, the source bytes and every other byte are as before, and the instance is
idle. The number of turns is the model's (log 5). -/
def Obligations.TranslateKeepsItsPromise : Prop :=
  ∀ (s : State) (n : Nat) (e : Engine) (j : Job) (ts : List Turn),
    s.engines[n]? = some e → e.flight = none → s.mem.Wf → j.instr.wf s.cfg.addrW = true → 1 ≤ j.count →
    e.port.words = encode j.instr → j.Admitted s.cfg.addrW e.port.launch → j.Clean s.cfg.addrW →
    s.turns = List.replicate j.count (.engine n 0) ++ ts →
      ∃ t, runSteps j.count s = .next t ∧
        t.engines[n]? =
          some { ring := e.ring.feed (j.octets s.cfg.addrW s.mem), flight := none,
                 port := { words := [], launch := e.port.launch } } ∧
        (∀ m, m ≠ n → t.engines[m]? = s.engines[m]?) ∧
        (∀ i a, (HistRing.accs s.cfg j.ord e.ring (j.octets s.cfg.addrW s.mem))[i]? = some a → ∀ k, k < sampleBytes →
          t.mem.read (j.outAddr s.cfg.addrW i k) = sampleByte (i2f s.cfg.frac a) k) ∧
        ∀ x, (∀ i, i < j.count → ∀ k, k < sampleBytes → x ≠ j.outAddr s.cfg.addrW i k) → t.mem.read x = s.mem.read x

/-- R117, R188, R61: with its instance taking turns, a TRANSLATE of `COUNT >= 1` octets ends: after `COUNT` turns it is
complete, unless it is stuck, and it is stuck exactly at the first iteration that has an access outside the launch memory:
at the read, or, the read being admitted, at the sample. The number of turns is the model's (log 5), and stuck is a fault
(log 19). -/
def Obligations.TranslateEnds : Prop :=
  ∀ (s : State) (n : Nat) (e : Engine) (j : Job) (ts : List Turn),
    s.engines[n]? = some e → e.flight = none → j.instr.wf s.cfg.addrW = true → 1 ≤ j.count →
    e.port.words = encode j.instr → s.turns = List.replicate j.count (.engine n 0) ++ ts →
      let aw := s.cfg.addrW
      let l := e.port.launch
      (j.Admitted aw l → ∃ t e', runSteps j.count s = .next t ∧ t.turns = ts ∧ t.engines[n]? = some e' ∧
        e'.flight = none ∧ e'.port.words = []) ∧
      ∀ i, i < j.count → (∀ m, m < i → j.AdmittedAt aw l m) →
        (l.canRead (srcAddr aw j.src j.sstride i) = false →
          runSteps j.count s = .fault (.stuckRead n (srcAddr aw j.src j.sstride i))) ∧
        (l.canRead (srcAddr aw j.src j.sstride i) = true →
          (∃ k, k < sampleBytes ∧ l.canWrite (j.outAddr aw i k) = false) →
            runSteps j.count s = .fault (.stuckWrite n (dstAddr aw j.dst j.dstride i)))

/-- R114, chunking invariance: a host that issues one TRANSLATE of `N` octets gets exactly what it gets when it issues a
TRANSLATE of its first `a` and then a TRANSLATE of the other `N - a` from where the first stops, for every `a` up to `N`,
whatever the launch memory admits; bit for bit in the whole state, and stuck at the same access when it is stuck. (Both runs
are given the same turns, enough for either, with the host's second turn between them; turns, acts and steps are the model's:
log 5, log 6, log 8.) -/
def Obligations.ChunkingInvariance : Prop :=
  ∀ (s : State) (n a : Nat) (e : Engine) (j : Job) (l : Launch),
    s.engines[n]? = some e → e.flight = none → e.port.words = [] → j.instr.wf s.cfg.addrW = true → a ≤ j.count →
      let first : Job := { j with count := a }
      let second : Job :=
        { j with
          count := j.count - a
          src := srcAddr s.cfg.addrW j.src j.sstride a
          dst := dstAddr s.cfg.addrW j.dst j.dstride a }
      let given (acts : List HostAct) : State :=
        { s with
          host := acts
          turns := .host :: List.replicate (a + 1) (.engine n 0) ++
            .host :: List.replicate (j.count - a + 1) (.engine n 0) }
      runSteps (j.count + 4) (given [.issue n (encode j.instr) l]) =
        runSteps (j.count + 4) (given [.issue n (encode first.instr) l, .issue n (encode second.instr) l])

/-- R115, stride correctness: two TRANSLATEs that read the same octets, from the same ring under the same bit order,
end with the same ring and store the same samples, whatever their addresses and strides, on machines of one
configuration. The number of turns is the model's (log 5). -/
def Obligations.StrideCorrectness : Prop :=
  ∀ (s u : State) (n m : Nat) (e d : Engine) (j k : Job),
    u.cfg = s.cfg → s.engines[n]? = some e → u.engines[m]? = some d → e.flight = none → d.flight = none →
    d.ring = e.ring → s.mem.Wf → u.mem.Wf →
    j.instr.wf s.cfg.addrW = true → k.instr.wf s.cfg.addrW = true → 1 ≤ j.count → k.count = j.count → k.ord = j.ord →
    e.port.words = encode j.instr → d.port.words = encode k.instr →
    j.Admitted s.cfg.addrW e.port.launch → k.Admitted s.cfg.addrW d.port.launch →
    j.Clean s.cfg.addrW → k.Clean s.cfg.addrW →
    s.turns = List.replicate j.count (.engine n 0) → u.turns = List.replicate j.count (.engine m 0) →
    j.octets s.cfg.addrW s.mem = k.octets s.cfg.addrW u.mem →
      ∃ t v e' d', runSteps j.count s = .next t ∧ runSteps j.count u = .next v ∧
        t.engines[n]? = some e' ∧ v.engines[m]? = some d' ∧ e'.ring = d'.ring ∧
        ∀ i, i < j.count → ∀ b, b < sampleBytes →
          t.mem.read (j.outAddr s.cfg.addrW i b) = v.mem.read (k.outAddr s.cfg.addrW i b)

/-! ### The datapath -/

/-- R131: `rev8` reverses the bits of an octet, is its own inverse, and has the fixed points and values listed there. -/
def Obligations.Rev8ReversesTheBits : Prop :=
  (∀ v : Octet,
    (∀ j, j < 8 → (rev8 v).getLsbD j = v.getLsbD (7 - j)) ∧ rev8 (rev8 v) = v ∧
    ((rev8 v).toNat : Int) = sumTo 8 fun j => if v.getLsbD j then 2 ^ (7 - j) else 0) ∧
  (∀ v ∈ ([0x00, 0xFF, 0x81, 0x42, 0x24, 0x18, 0xA5, 0xC3] : List Octet), rev8 v = v) ∧
  rev8 0x01 = 0x80 ∧ rev8 0x12 = 0x48 ∧ rev8 0x69 = 0x96 ∧ rev8 0x0F = 0xF0 ∧ rev8 0x4D = 0xB2

/-- R29 (with R27): odd symmetry, bound, extremes, one-bit difference and parity of the coefficient table. -/
def Obligations.TableProperties : Prop :=
  ∀ (c : Config) (k : Nat) (v : Octet),
    ctab c k (v ^^^ 0xFF) = -ctab c k v ∧
    (c.Wf → k < nLag →
      |ctab c k v| ≤ sumTo 8 (fun j => |tapAt c (8 * k + j)|) ∧
      sumTo 8 (fun j => |tapAt c (8 * k + j)|) ≤ (2 : Int) ^ (c.tw + 2) ∧ FitsSigned c.ew (ctab c k v)) ∧
    ctab c k 0xFF = sumTo 8 (fun j => tapAt c (8 * k + j)) ∧
    ctab c k 0x00 = -sumTo 8 (fun j => tapAt c (8 * k + j)) ∧
    (∀ (v' : Octet) (j : Nat), j < 8 → v.getLsbD j = true → v'.getLsbD j = false →
      (∀ i, i < 8 → i ≠ j → v.getLsbD i = v'.getLsbD i) → ctab c k v - ctab c k v' = 2 * tapAt c (8 * k + j)) ∧
    ctab c k v % 2 = sumTo 8 (fun j => tapAt c (8 * k + j)) % 2

/-- R134, R142: at every point of CALC's loop the accumulator is within `2^(TW+6)`, so it fits `AW` signed bits, no
addition overflows, and the conversion's argument is within `2^24`. -/
def Obligations.AccumulatorNeverOverflows : Prop :=
  ∀ (c : Config) (h : Vector Octet histCap) (j : RingPos) (ord : BitOrder) (n : Nat), c.Wf → n ≤ nLag →
    |sumTo n (fun k => ctab c k (idx (atLag h j k) ord))| ≤ (2 : Int) ^ (c.tw + 6) ∧
    FitsSigned c.aw (sumTo n (fun k => ctab c k (idx (atLag h j k) ord))) ∧
    |calcSum c h j ord| ≤ (2 : Int) ^ 24

/-- R136: the sum of 16 table entries is the convolution of the last 128 modulation bits with the 128 taps: the bit of age
`8*k + r` is bit `r` of the octet at lag `k` most significant bit first, and bit `7 - r` of it least significant first. -/
def Obligations.CalcIsTheFir : Prop :=
  ∀ (c : Config) (h : Vector Octet histCap) (j : RingPos) (ord : BitOrder),
    calcSum c h j ord =
      sumTo nTaps fun n =>
        tapAt c n * sgn ((slotAt h (j - BitVec.ofNat 4 (n / 8))).getLsbD
          (match ord with
            | .msbf => n % 8
            | .lsbf => 7 - n % 8))

/-- R118: the ring after any number of octets: `WP` advanced by their number mod 16, the last `min(n,16)` octets in the
slots behind it, newest first, and the other slots unchanged. -/
def Obligations.RingAfterOctets : Prop :=
  ∀ (r : HistRing) (os : List Octet),
    (r.feed os).wp = r.wp + BitVec.ofNat 4 os.length ∧
    (∀ m, 1 ≤ m → m ≤ os.length → m ≤ 16 →
      os[os.length - m]? = some (slotAt (r.feed os).hist (r.wp + BitVec.ofNat 4 os.length - BitVec.ofNat 4 m))) ∧
    ∀ m, os.length < m → m ≤ 16 →
      slotAt (r.feed os).hist (r.wp + BitVec.ofNat 4 os.length - BitVec.ofNat 4 m) =
        slotAt r.hist (r.wp + BitVec.ofNat 4 os.length - BitVec.ofNat 4 m)

/-- R22: after any octets since a reset, the history holds the most recent 16, zero-filled before the first, and `WP` is
at the oldest. -/
def Obligations.HistoryHoldsTheLastSixteen : Prop :=
  ∀ (os : List Octet) (k : Nat), k < 16 →
    slotAt (HistRing.fresh.feed os).hist ((HistRing.fresh.feed os).wp - 1 - BitVec.ofNat 4 k) = os.reverse.getD k 0x00 ∧
    (HistRing.fresh.feed os).wp = BitVec.ofNat 4 os.length

/-- R138, R183: the sample at index 15 or later is a function of the most recent 16 octets alone: from any ring it is what
any other ring gives when stepped through just those 16. -/
def Obligations.SettlingLength : Prop :=
  ∀ (c : Config) (ord : BitOrder) (r r' : HistRing) (os : List Octet) (i : Nat), 15 ≤ i → i < os.length →
    (HistRing.accs c ord r os)[i]? = (HistRing.accs c ord r' ((os.drop (i - 15)).take 16))[15]?

/-- R137, bit-order symmetry: octets stepped in most significant bit first, and their reversals stepped in least
significant bit first on the reversed history, give the same accumulators. -/
def Obligations.BitOrderSymmetry : Prop :=
  ∀ (c : Config) (r : HistRing) (os : List Octet),
    HistRing.accs c .msbf r os = HistRing.accs c .lsbf { hist := r.hist.map rev8, wp := r.wp } (os.map rev8)

/-- R139, rotation invariance: a ring turned by any number of slots gives the same accumulators and stays the turned
ring. -/
def Obligations.RotationInvariance : Prop :=
  ∀ (c : Config) (ord : BitOrder) (r r' : HistRing) (d : RingPos) (os : List Octet),
    r'.wp = r.wp + d → (∀ i, slotAt r'.hist (i + d) = slotAt r.hist i) →
      HistRing.accs c ord r' os = HistRing.accs c ord r os ∧ (r'.feed os).wp = (r.feed os).wp + d ∧
      ∀ i, slotAt (r'.feed os).hist (i + d) = slotAt (r.feed os).hist i

/-- R140 (as 90_conflicts C1 corrects the source): a history of one octet throughout gives `Z`, which is the sum `G` of the
taps for `0xFF`, `-G` for `0x00`, and odd under complement; after RESET, `0x00` octets give `-G` from the first sample. -/
def Obligations.ConstantInput : Prop :=
  ∀ (c : Config) (ord : BitOrder),
    let G := sumTo nTaps (tapAt c)
    let Z (v : Octet) := sumTo nLag fun k => ctab c k (idx v ord)
    (∀ (h : Vector Octet histCap) (j : RingPos) (v : Octet), (∀ i, slotAt h i = v) → calcSum c h j ord = Z v) ∧
    Z 0xFF = G ∧ Z 0x00 = -G ∧ (∀ v, Z (v ^^^ 0xFF) = -Z v) ∧
    ∀ n, HistRing.accs c ord HistRing.fresh (List.replicate n 0x00) = List.replicate n (-G)

/-- R141, R142: the word written is the binary32 number equal to `a * 2^(-FRAC)`, exactly, on the whole domain. The
reading of a binary32 word (`f32Value`) is the spec's general knowledge G1. -/
def Obligations.SampleIsExact : Prop :=
  ∀ (frac : Nat) (a : Int), frac ≤ 126 → |a| ≤ (2 : Int) ^ 24 →
    f32Value (i2f frac a) = some ((a : ℚ) * (2 : ℚ) ^ (-(frac : ℤ)))

/-- R142, R143: zero gives the word `0x00000000`; every other sum gives a normal number, with a biased exponent between 1
and 151 and the sum's sign: no NaN, infinity, subnormal or negative zero; and distinct sums give distinct words. -/
def Obligations.SampleIsNormalOrZero : Prop :=
  ∀ (frac : Nat), frac ≤ 126 →
    i2f frac 0 = 0x00000000 ∧
    (∀ a : Int, a ≠ 0 → |a| ≤ (2 : Int) ^ 24 →
      1 ≤ f32Exp (i2f frac a) ∧ f32Exp (i2f frac a) ≤ 151 ∧ (f32Sign (i2f frac a) = true ↔ a < 0)) ∧
    ∀ a b : Int, |a| ≤ (2 : Int) ^ 24 → |b| ≤ (2 : Int) ^ 24 → i2f frac a = i2f frac b → a = b

/-- R55, R54: bits 7:0 of the stored word are at the sample's address, bits 15:8, 23:16 and 31:24 at the three after it,
each taken mod `2^ADDR_W`, and no other byte changes. -/
def Obligations.SampleIsLittleEndian : Prop :=
  ∀ (m : Memory) (aw dp : Nat) (w : BitVec 32), m.Wf → 3 ≤ aw →
    (∀ k, k < 4 →
      ((m.storeAll (sampleCells aw dp w)).read ((dp + k) % 2 ^ aw)).toNat = w.toNat / 256 ^ k % 256) ∧
    ∀ a, (∀ k, k < 4 → a ≠ (dp + k) % 2 ^ aw) → (m.storeAll (sampleCells aw dp w)).read a = m.read a

/-- R84, R54: a stride is signed and in the range of `ADDR_W` bits, but the additions are modular, so reading it unsigned
gives the same addresses; the output stride counts samples of 4 bytes. -/
def Obligations.StridesAreModular : Prop :=
  ∀ (aw p v : Nat), 1 ≤ aw → v < 2 ^ aw →
    FitsSigned aw (sext aw v) ∧ nextSp aw p (sext aw v) = (p + v) % 2 ^ aw ∧
    nextDp aw p (sext aw v) = (p + 4 * v) % 2 ^ aw

/-! ### The host -/

/-- R8, R173, R177: the host's packet reaches the port of an idle instance whose port is empty, and nothing else changes;
words that are not one packet the port does not take. The list of acts and the refusal are the model's (log 8, log 9). -/
def Obligations.IssueReachesAnIdlePort : Prop :=
  ∀ (s : State) (n : Nat) (e : Engine) (ts : List Turn) (words : List Nat) (launch : Launch) (acts : List HostAct),
    s.turns = .host :: ts → s.host = .issue n words launch :: acts → s.engines[n]? = some e → e.flight = none →
    e.port.words = [] →
      (onePacket words = true →
        step s =
          .next { s with
            turns := ts
            host := acts
            engines := s.engines.set n { e with port := { words := words, launch := launch } } }) ∧
      (onePacket words = false → step s = .refused (.notOnePacket n))

/-- R82, R83, R87: the words of every command are one packet, and cutting a word off a TRANSLATE's, or putting one after
either's, leaves no packet. -/
def Obligations.EncodedWordsAreOnePacket : Prop :=
  ∀ i : Instr, onePacket (encode i) = true ∧ (∀ w, onePacket (encode i ++ [w]) = false) ∧
    onePacket (encode i).dropLast = false

/-- R178: the host's wait for instance `n` ends exactly when the instance is idle and nothing waits on its port; until
then the turn changes nothing. That nothing waits on the port is the model's part of it (log 8). -/
def Obligations.AwaitEndsAtCompletion : Prop :=
  ∀ (s : State) (n : Nat) (e : Engine) (ts : List Turn) (acts : List HostAct),
    s.turns = .host :: ts → s.host = .await n :: acts → s.engines[n]? = some e →
      (e.flight = none ∧ e.port.words = [] → step s = .next { s with turns := ts, host := acts }) ∧
      (e.flight ≠ none ∨ e.port.words ≠ [] → step s = .next { s with turns := ts })

/-- R173, R64: the host's store of a byte is what memory then holds there, and nothing else changes. The list of acts
is the model's (log 8). -/
def Obligations.HostStoresOneByte : Prop :=
  ∀ (s : State) (a : Nat) (b : Octet) (ts : List Turn) (acts : List HostAct),
    s.turns = .host :: ts → s.host = .store a b :: acts → s.mem.Wf → a < 2 ^ s.cfg.addrW →
      ∃ m, step s = .next { s with turns := ts, host := acts, mem := m } ∧ m.read a = b ∧
        ∀ x, x ≠ a → m.read x = s.mem.read x

/-- R180: hardware reset puts every instance, busy or not, into its reset state; memory keeps what had been stored.
It is remembered if a command in flight or a packet on a port was ended by it (R190). That the port is cleared and bytes on
their way are lost is the model's (log 13). -/
def Obligations.HardResetMakesAllFresh : Prop :=
  ∀ (s : State) (ts : List Turn) (acts : List HostAct),
    s.turns = .host :: ts → s.host = .hardReset :: acts →
      ∃ b, step s =
        .next { s with
          turns := ts
          host := acts
          engines := List.replicate s.engines.length Engine.fresh
          cut := b } ∧
        (b = true ↔ s.cut = true ∨ ∃ e ∈ s.engines, e.flight ≠ none ∨ e.port.words ≠ [])

/-! ### The whole machine -/

/-- Every step from a legal state, whoever moves, leads to a legal state: the memory in its form and inside the
address space (R50), the in-flight registers within `ADDR_W` bits (R35), at most one sample on its way and only to
distinct bytes its command may write (R69, R54, R61), at most one packet on a port and none while its instance is busy (R8,
R177), `N_INST` instances (R171), the parameters as R6 constrains them. The sample on its way is held as log 7 says. -/
def Obligations.StepKeepsTheInvariant : Prop :=
  ∀ s t : State, s.Inv → step s = .next t → t.Inv

/-- The state after hardware reset is legal, for every filter and every number of instances. Empty memory is the
model's (log 4); the filter and the number are free values (log 2, log 3). -/
def Obligations.ResetIsLegal : Prop := State.reset.Inv

/-- R26, R6, R171: no step changes the configuration, and so `CTAB`, or the number of instances. -/
def Obligations.ConfigurationNeverChanges : Prop :=
  ∀ s t : State, step s = .next t →
    t.cfg = s.cfg ∧ t.engines.length = s.engines.length ∧ ∀ k v, ctab t.cfg k v = ctab s.cfg k v

/-- R24, R120, R175: at an instance's turn no other instance changes, nor what the host has left to do; at the host's turn,
unless it pulls the reset input, no instance's ring or in-flight registers change. -/
def Obligations.InstancesArePrivate : Prop :=
  (∀ (s t : State) (n : Nat) (hold : BitVec 4) (ts : List Turn), s.turns = .engine n hold :: ts → step s = .next t →
    t.host = s.host ∧ ∀ m, m ≠ n → t.engines[m]? = s.engines[m]?) ∧
  ∀ (s t : State) (ts : List Turn), s.turns = .host :: ts → s.host.head? ≠ some .hardReset → step s = .next t →
    ∀ (m : Nat) (e : Engine), s.engines[m]? = some e →
      ∃ e', t.engines[m]? = some e' ∧ e'.ring = e.ring ∧ e'.flight = e.flight

/-- R61, R176, R59: at an instance's turn, in a legal state, memory changes at no byte outside the writable set of the
instance's launch memory. -/
def Obligations.WritesStayInTheLaunch : Prop :=
  ∀ (s t : State) (n : Nat) (hold : BitVec 4) (ts : List Turn) (e : Engine),
    s.Inv → s.turns = .engine n hold :: ts → s.engines[n]? = some e → step s = .next t →
      ∀ a, e.port.launch.canWrite a = false → t.mem.read a = s.mem.read a

/-- R65: when neither of two instances' commands may write a byte the other may read or write, the order of their
turns, torn or not, does not matter: memory and every instance end the same. Turns and torn writes are the model's
data (log 6, log 7). -/
def Obligations.DisjointInstancesCommute : Prop :=
  ∀ (s t : State) (n m : Nat) (h k : BitVec 4) (e d : Engine),
    s.Inv → n ≠ m → s.engines[n]? = some e → s.engines[m]? = some d → e.port.launch.apart d.port.launch = true →
    runSteps 2 { s with turns := [.engine n h, .engine m k] } = .next t →
      ∃ u, runSteps 2 { s with turns := [.engine m k, .engine n h] } = .next u ∧
        u.mem = t.mem ∧ u.engines = t.engines ∧ u.host = t.host ∧ u.cfg = t.cfg ∧ u.cut = t.cut
end

