-- ==== Sys2Proof/Laws/Calc.lean ====
section
/-! SUPPORT. The sum, the ring after a step, and where the octets of the past stand. -/

namespace Sys2Proof.Machine

theorem sumTo_congr {n : Nat} {f g : Nat → Int} (h : ∀ k < n, f k = g k) : sumTo n f = sumTo n g := by
  induction n with
  | zero => rfl
  | succ n ih => rw [sumTo, sumTo, ih fun k hk => h k (by omega), h n (by omega)]

theorem sumTo_neg (n : Nat) (f : Nat → Int) : sumTo n (fun k => -f k) = -sumTo n f := by
  induction n with
  | zero => rfl
  | succ n ih => rw [sumTo, sumTo, ih]; ring

theorem sumTo_add (n : Nat) (f g : Nat → Int) : sumTo n (fun k => f k + g k) = sumTo n f + sumTo n g := by
  induction n with
  | zero => rfl
  | succ n ih => rw [sumTo, sumTo, sumTo, ih]; ring

theorem sumTo_zero (n : Nat) : sumTo n (fun _ => 0) = 0 := by
  induction n with
  | zero => rfl
  | succ n ih => rw [sumTo, ih]; rfl

/-- A sum of terms none of which exceeds `b` in magnitude. -/
theorem sumTo_abs_le {n : Nat} {f : Nat → Int} {b : Int} (h : ∀ k < n, |f k| ≤ b) : |sumTo n f| ≤ n * b := by
  induction n with
  | zero => simp [sumTo]
  | succ n ih =>
    have h1 := ih fun k hk => h k (by omega)
    have h2 := h n (by omega)
    rw [sumTo]
    calc |sumTo n f + f n| ≤ |sumTo n f| + |f n| := abs_add_le _ _
      _ ≤ n * b + b := add_le_add h1 h2
      _ = ((n + 1 : Nat) : Int) * b := by push_cast; ring

/-- A long sum is a sum of short ones. -/
theorem sumTo_mul (m n : Nat) (f : Nat → Int) :
    sumTo (n * m) f = sumTo n fun k => sumTo m fun j => f (m * k + j) := by
  have split : ∀ a b : Nat, sumTo (a + b) f = sumTo a f + sumTo b fun j => f (a + j) := by
    intro a b
    induction b with
    | zero => simp [sumTo]
    | succ b ih => rw [← Nat.add_assoc, sumTo, ih, sumTo]; ring
  induction n with
  | zero => simp [sumTo]
  | succ n ih => rw [Nat.succ_mul, split, ih, sumTo, Nat.mul_comm n m]

/-! ### The ring -/

@[simp] theorem slotAt_putSlot_same (h : Vector Octet histCap) (i : RingPos) (v : Octet) :
    slotAt (putSlot h i v) i = v := by
  simp [slotAt, putSlot]

theorem slotAt_putSlot_other (h : Vector Octet histCap) {i j : RingPos} (v : Octet) (hij : j ≠ i) :
    slotAt (putSlot h i v) j = slotAt h j := by
  unfold slotAt putSlot
  rw [Vector.getElem_set_ne]
  exact fun h => hij (BitVec.eq_of_toNat_eq h.symm)

@[simp] theorem HistRing.push_wp (r : HistRing) (o : Octet) : (r.push o).wp = r.wp + 1 := rfl

@[simp] theorem HistRing.push_hist (r : HistRing) (o : Octet) : (r.push o).hist = putSlot r.hist r.wp o := rfl

@[simp] theorem slotAt_fresh (i : RingPos) : slotAt HistRing.fresh.hist i = fill := by
  simp [slotAt, HistRing.fresh]

/-- Histories that agree slot by slot are equal. -/
theorem hist_ext {h g : Vector Octet histCap} (hs : ∀ i, slotAt h i = slotAt g i) : h = g := by
  refine Vector.ext fun i hi => ?_
  have := hs (BitVec.ofNat 4 i)
  have e : (BitVec.ofNat 4 i).toNat = i := by
    rw [BitVec.toNat_ofNat]
    exact Nat.mod_eq_of_lt hi
  simpa only [slotAt, e] using this

/-- The octet just stepped in is at lag 0 (R112, R130). -/
theorem atLag_push_zero (r : HistRing) (o : Octet) : atLag (r.push o).hist r.wp 0 = o := by
  simp [atLag]

/-- Every other lag holds what it held, one step older (R130). -/
theorem atLag_push_succ (r : HistRing) (o : Octet) {k : Nat} (hk : k + 1 < histCap) :
    atLag (r.push o).hist r.wp (k + 1) = atLag r.hist (r.wp - 1) k := by
  have e : r.wp - BitVec.ofNat 4 (k + 1) = r.wp - 1 - BitVec.ofNat 4 k := by
    rw [BitVec.ofNat_add]
    exact sub_add_eq_sub_sub_swap _ _ _
  unfold atLag
  rw [e, HistRing.push_hist, slotAt_putSlot_other]
  intro h
  rw [← e] at h
  have h0 : BitVec.ofNat 4 (k + 1) = 0 := by
    have := congrArg (r.wp - ·) h
    simpa using this
  have h1 : (k + 1) % 16 = 0 := congrArg BitVec.toNat h0
  rw [Nat.mod_eq_of_lt hk] at h1
  omega

theorem HistRing.feed_append (r : HistRing) (xs ys : List Octet) : r.feed (xs ++ ys) = (r.feed xs).feed ys := by
  induction xs generalizing r with
  | nil => rfl
  | cons x xs ih => exact ih _

theorem HistRing.accs_append (c : Config) (ord : BitOrder) (r : HistRing) (xs ys : List Octet) :
    HistRing.accs c ord r (xs ++ ys) = HistRing.accs c ord r xs ++ HistRing.accs c ord (r.feed xs) ys := by
  induction xs generalizing r with
  | nil => rfl
  | cons x xs ih => simp [HistRing.accs, HistRing.feed, ih]

@[simp] theorem HistRing.accs_length (c : Config) (ord : BitOrder) (r : HistRing) (xs : List Octet) :
    (HistRing.accs c ord r xs).length = xs.length := by
  induction xs generalizing r with
  | nil => rfl
  | cons x xs ih => simp [HistRing.accs, ih]

/-- Accumulator `i` is what stepping octet `i` into the ring of the octets before it gives. -/
theorem HistRing.accs_getElem (c : Config) (ord : BitOrder) (r : HistRing) (os : List Octet) (i : Nat) :
    (HistRing.accs c ord r os)[i]? = (os[i]?).map fun o => (r.feed (os.take i)).acc c o ord := by
  induction os generalizing r i with
  | nil => simp [HistRing.accs]
  | cons o os ih =>
    cases i with
    | zero => simp [HistRing.accs, HistRing.feed]
    | succ i => simp [HistRing.accs, HistRing.feed, ih]

/-- Histories that agree at every lag give the same sum. -/
theorem calcSum_congr (c : Config) {h g : Vector Octet histCap} {j i : RingPos} (ord : BitOrder)
    (e : ∀ k < nLag, atLag h j k = atLag g i k) : calcSum c h j ord = calcSum c g i ord := by
  unfold calcSum
  exact sumTo_congr fun k hk => by rw [e k hk]

end Sys2Proof.Machine
end

