-- ==== Sys2Proof/Laws/Codec.lean ====
section
/-! SUPPORT. What the decoder and the encoder give on one another's answers, word by word. -/

namespace Sys2Proof

/-- The first word of a command's packet selects that command (R86). -/
theorem decodeW0_reset : decodeW0 0x00000001 = .reset := by decide

theorem decodeW0_translate (ord : BitOrder) : decodeW0 (BitVec.ofNat 32 (translateW0 ord)) = .translate ord := by
  cases ord <;> decide

theorem translateW0_lt (ord : BitOrder) : translateW0 ord < 2 ^ 32 := by cases ord <;> decide

/-- A rejection of the first word is a rejection of the packet (R88). -/
theorem decode_of_invalid {aw w : Nat} {ws : List Nat} {r : Reject} (hw : w < 2 ^ 32)
    (h : decodeW0 (BitVec.ofNat 32 w) = .invalid r) : decode aw (w :: ws) = .rejected r := by
  simp only [decode, if_pos hw, h]

/-! ### A packet as one bit string (R83) -/

/-- The low digit and the rest of a number written with one. -/
theorem low_digit_and_rest {b x y : Nat} (hx : x < b) : (x + b * y) % b = x ∧ (x + b * y) / b = y := by
  constructor
  · rw [Nat.add_mul_mod_self_left, Nat.mod_eq_of_lt hx]
  · rw [Nat.add_mul_div_left _ _ (by omega), Nat.div_eq_of_lt hx, Nat.zero_add]

/-- A format T packet as one bit string is cut into the packet's words. -/
theorem wordsOfBits_pack {aw count src ss dst ds : Nat} (ord : BitOrder) (hc : count < 2 ^ aw) (hs : src < 2 ^ aw)
    (hss : ss < 2 ^ aw) (hd : dst < 2 ^ aw) (hds : ds < 2 ^ aw) :
    wordsOfBits aw
        (translateW0 ord + 2 ^ 32 * (count + 2 ^ aw * (src + 2 ^ aw * (ss + 2 ^ aw * (dst + 2 ^ aw * ds))))) =
      encode (.translate count src ss ord dst ds) := by
  have ht := translateW0_lt ord
  have hw : ∀ x, BitVec.ofNat 32 (translateW0 ord + 2 ^ 32 * x) = BitVec.ofNat 32 (translateW0 ord) := fun x =>
    BitVec.eq_of_toNat_eq (by simp)
  have hl : packetLength (BitVec.ofNat 32 (translateW0 ord)) = 6 := by simp [packetLength, decodeW0_translate]
  have hr : List.range 5 = [0, 1, 2, 3, 4] := rfl
  have hp : ∀ x k, x / 2 ^ (32 + aw * k) = x / 2 ^ 32 / (2 ^ aw) ^ k := fun x k => by
    rw [pow_add, pow_mul, Nat.div_div_eq_div_mul]
  unfold wordsOfBits
  rw [hw, hl, hr]
  simp only [hp, encode]
  generalize (2 : Nat) ^ 32 = b at *
  generalize (2 : Nat) ^ aw = a at *
  generalize translateW0 ord = t at ht ⊢
  have e1 : ∀ x, x / a ^ 1 = x / a := fun x => by rw [pow_one]
  have e2 : ∀ x, x / a ^ 2 = x / a / a := fun x => by rw [pow_two, Nat.div_div_eq_div_mul]
  have e3 : ∀ x, x / a ^ 3 = x / a / a / a := fun x => by rw [pow_succ, ← Nat.div_div_eq_div_mul, e2]
  have e4 : ∀ x, x / a ^ 4 = x / a / a / a / a := fun x => by rw [pow_succ, ← Nat.div_div_eq_div_mul, e3]
  simp only [List.map, List.take, e1, e2, e3, e4, pow_zero, Nat.div_one, low_digit_and_rest ht, low_digit_and_rest hc,
    low_digit_and_rest hs, low_digit_and_rest hss, low_digit_and_rest hd, Nat.mod_eq_of_lt hds]

/-- A row's instruction is what the decoder gives on the words its bits are cut into. -/
theorem decodeTableWord_of_words {nbits w : Nat} {ws rest : List Nat} {i : Instr}
    (hw : wordsOfBits 32 (w % 2 ^ nbits) = ws) (hd : decode 32 ws = .ok i rest) : decodeTableWord nbits w = some i := by
  unfold decodeTableWord
  rw [hw, hd]

end Sys2Proof
end

