-- ==== Sys2Proof/Laws/Memory.lean ====
section
/-! SUPPORT. Reading after writing, and that every memory operation keeps the canonical form. -/

namespace Sys2Proof.Machine

theorem Memory.read_push_other (m : Memory) (c : Host.Cell) (x : Nat) (h : x ≠ c.1) :
    (Memory.push c m).read x = m.read x := by
  unfold Memory.push
  split
  · rfl
  · simp [Memory.read, Ne.symm h]

/-- An address below every listed one reads as unlisted. -/
theorem Memory.read_below (m : Memory) (a : Nat) (h : ∀ c ∈ m, a < c.1) : m.read a = unlisted := by
  induction m with
  | nil => rfl
  | cons c m ih =>
    simp only [Memory.read, if_neg (Nat.ne_of_gt (h c (by simp)))]
    exact ih fun d hd => h d (by simp [hd])

theorem Memory.read_push_same (m : Memory) (a : Nat) (b : Octet) (h : ∀ c ∈ m, a < c.1) :
    (Memory.push (a, b) m).read a = b := by
  unfold Memory.push
  split
  · rename_i hb
    exact (Memory.read_below m a h).trans hb.symm
  · exact if_pos rfl

/-- An address other than the first listed one is read from the rest. -/
theorem Memory.read_cons_ne (c : Host.Cell) (m : Memory) (a : Nat) (h : c.1 ≠ a) :
    Memory.read (c :: m) a = m.read a := by simp [Memory.read, h]

/-- A store leaves every other address as it was. -/
theorem Memory.read_write_other (m : Memory) (a x : Nat) (b : Octet) (h : x ≠ a) :
    (m.write a b).read x = m.read x := by
  induction m with
  | nil => exact Memory.read_push_other [] (a, b) x h
  | cons c m ih =>
    unfold Memory.write
    split
    · exact Memory.read_push_other _ (a, b) x h
    · split
      · rename_i _ hc
        rw [Memory.read_push_other _ (a, b) x h, Memory.read_cons_ne c m x (by omega)]
      · simp only [Memory.read, ih]

/-- A store to canonical memory is what a read of the address then gives. -/
theorem Memory.read_write_same (m : Memory) (a : Nat) (b : Octet) (hm : m.Wf) : (m.write a b).read a = b := by
  obtain ⟨hs, hz⟩ := hm
  induction m with
  | nil => exact Memory.read_push_same [] a b (by simp)
  | cons c m ih =>
    have hs' := List.pairwise_cons.mp hs
    unfold Memory.write
    split
    · rename_i hc
      refine Memory.read_push_same _ a b fun d hd => ?_
      rcases List.mem_cons.mp hd with rfl | hd
      · exact hc
      · exact lt_trans hc (hs'.1 d hd)
    · split
      · rename_i _ hc
        exact Memory.read_push_same _ a b fun d hd => hc ▸ hs'.1 d hd
      · rename_i h1 h2
        rw [Memory.read_cons_ne _ _ _ (by omega)]
        exact ih hs'.2 fun d hd => hz d (by simp [hd])

theorem Memory.mem_push {c d : Host.Cell} {m : Memory} (h : d ∈ Memory.push c m) : d = c ∨ d ∈ m := by
  unfold Memory.push at h
  split at h
  · exact .inr h
  · simpa using h

/-- A cell listed after a store is the stored one or was listed before. -/
theorem Memory.mem_write {m : Memory} {a : Nat} {b : Octet} {d : Host.Cell} (h : d ∈ m.write a b) :
    d = (a, b) ∨ d ∈ m := by
  induction m with
  | nil => exact Memory.mem_push h
  | cons c m ih =>
    unfold Memory.write at h
    split at h
    · exact Memory.mem_push h
    · split at h
      · exact (Memory.mem_push h).imp_right fun h => by simp [h]
      · rcases List.mem_cons.mp h with rfl | h
        · simp
        · exact (ih h).imp_right fun h => by simp [h]

theorem Memory.push_wf {m : Memory} {a : Nat} {b : Octet} (hm : m.Wf) (h : ∀ c ∈ m, a < c.1) :
    (Memory.push (a, b) m).Wf := by
  unfold Memory.push
  split
  · exact hm
  · rename_i hb
    refine ⟨List.pairwise_cons.mpr ⟨h, hm.1⟩, fun c hc => ?_⟩
    rcases List.mem_cons.mp hc with rfl | hc
    · exact hb
    · exact hm.2 c hc

/-- A store keeps the canonical form. -/
theorem Memory.write_wf {m : Memory} (a : Nat) (b : Octet) (hm : m.Wf) : (m.write a b).Wf := by
  induction m with
  | nil => exact Memory.push_wf ⟨.nil, by simp⟩ (by simp)
  | cons c m ih =>
    have hs' := List.pairwise_cons.mp hm.1
    have hm' : Memory.Wf m := ⟨hs'.2, fun d hd => hm.2 d (by simp [hd])⟩
    unfold Memory.write
    split
    · rename_i hc
      refine Memory.push_wf hm fun d hd => ?_
      rcases List.mem_cons.mp hd with rfl | hd
      · exact hc
      · exact lt_trans hc (hs'.1 d hd)
    · split
      · rename_i _ hc
        exact Memory.push_wf hm' fun d hd => hc ▸ hs'.1 d hd
      · rename_i h1 h2
        refine ⟨List.pairwise_cons.mpr ⟨fun d hd => ?_, (ih hm').1⟩, fun d hd => ?_⟩
        · rcases Memory.mem_write hd with rfl | hd
          · show c.1 < a
            omega
          · exact hs'.1 d hd
        · rcases List.mem_cons.mp hd with rfl | hd
          · exact hm.2 d (by simp)
          · exact (ih hm').2 d hd

/-- Storing several bytes keeps the canonical form. -/
theorem Memory.storeAll_wf {m : Memory} (cs : List Host.Cell) (hm : m.Wf) : (m.storeAll cs).Wf := by
  induction cs generalizing m with
  | nil => exact hm
  | cons c cs ih => exact ih (Memory.write_wf c.1 c.2 hm)

/-- Bytes at addresses below a bound keep every listed address below it. -/
theorem Memory.storeAll_below {m : Memory} {cs : List Host.Cell} {top : Nat} (hm : ∀ c ∈ m, c.1 < top)
    (hc : ∀ c ∈ cs, c.1 < top) : ∀ c ∈ m.storeAll cs, c.1 < top := by
  induction cs generalizing m with
  | nil => exact hm
  | cons c cs ih =>
    refine ih (fun d hd => ?_) fun d hd => hc d (by simp [hd])
    rcases Memory.mem_write hd with rfl | hd
    · exact hc c (by simp)
    · exact hm d hd

/-- An address none of the bytes is stored to reads as before. -/
theorem Memory.read_storeAll_other (m : Memory) (cs : List Host.Cell) (a : Nat) (h : ∀ c ∈ cs, c.1 ≠ a) :
    (m.storeAll cs).read a = m.read a := by
  induction cs generalizing m with
  | nil => rfl
  | cons c cs ih =>
    rw [Memory.storeAll, ih _ fun d hd => h d (by simp [hd]),
      Memory.read_write_other m c.1 a c.2 (Ne.symm (h c (by simp)))]

/-- Stored bytes at distinct addresses are what is read afterwards. -/
theorem Memory.read_storeAll_same {m : Memory} {cs : List Host.Cell} {c : Host.Cell} (hm : m.Wf)
    (hd : (cs.map (·.1)).Nodup) (hc : c ∈ cs) : (m.storeAll cs).read c.1 = c.2 := by
  induction cs generalizing m with
  | nil => simp at hc
  | cons d cs ih =>
    have hd' := List.nodup_cons.mp hd
    rcases List.mem_cons.mp hc with rfl | hc
    · rw [Memory.storeAll, Memory.read_storeAll_other _ _ _ fun x hx h => hd'.1 (List.mem_map.mpr ⟨x, hx, h⟩),
        Memory.read_write_same m _ _ hm]
    · exact ih (Memory.write_wf _ _ hm) hd'.2 hc

theorem Memory.storeAll_append (m : Memory) (cs ds : List Host.Cell) :
    m.storeAll (cs ++ ds) = (m.storeAll cs).storeAll ds := by
  induction cs generalizing m with
  | nil => rfl
  | cons c cs ih => exact ih _

theorem Memory.read_head_ne_unlisted {c : Host.Cell} {m : Memory} (hm : Memory.Wf (c :: m)) :
    Memory.read (c :: m) c.1 ≠ unlisted := by
  simpa [Memory.read] using hm.2 c (by simp)

/-- Canonical memories that read the same everywhere are the same list. -/
theorem Memory.ext_of_wf {m k : Memory} (hm : m.Wf) (hk : k.Wf) (h : ∀ a, m.read a = k.read a) : m = k := by
  induction m generalizing k with
  | nil =>
    cases k with
    | nil => rfl
    | cons d k => exact absurd (h d.1).symm (Memory.read_head_ne_unlisted hk)
  | cons c m ih =>
    cases k with
    | nil => exact absurd (h c.1) (Memory.read_head_ne_unlisted hm)
    | cons d k =>
      have hm' := List.pairwise_cons.mp hm.1
      have hk' := List.pairwise_cons.mp hk.1
      have hlt : ∀ {x y : Host.Cell} {l n : Memory}, Memory.Wf (x :: l) → (∀ z ∈ n, y.1 < z.1) → x.1 < y.1 →
          Memory.read (x :: l) x.1 = Memory.read (y :: n) x.1 → False := fun {x y l n} hw hn hxy he =>
        Memory.read_head_ne_unlisted hw <| he.trans <| Memory.read_below _ _ fun z hz => by
          rcases List.mem_cons.mp hz with rfl | hz
          · exact hxy
          · exact lt_trans hxy (hn z hz)
      have h1 : c.1 = d.1 := by
        rcases lt_trichotomy c.1 d.1 with hc | hc | hc
        · exact (hlt hm hk'.1 hc (h c.1)).elim
        · exact hc
        · exact (hlt hk hm'.1 hc (h d.1).symm).elim
      have h2 : c.2 = d.2 := by simpa [Memory.read, h1] using h c.1
      have hcd : c = d := Prod.ext h1 h2
      subst hcd
      refine congrArg _ (ih ⟨hm'.2, fun x hx => hm.2 x (by simp [hx])⟩ ⟨hk'.2, fun x hx => hk.2 x (by simp [hx])⟩
        fun a => ?_)
      by_cases ha : c.1 = a
      · subst ha
        rw [Memory.read_below m _ hm'.1, Memory.read_below k _ hk'.1]
      · simpa [Memory.read, ha] using h a

/-- Memory at reset has the canonical form. -/
theorem reset_mem_wf : State.reset.mem.Wf := ⟨.nil, by simp [State.reset]⟩

/-! ### Bytes on their way -/

/-- The bytes that land are some of the row, in its order. -/
theorem landing_sublist (hold : BitVec 4) (cs : List Host.Cell) (i : Nat) : (landing hold i cs).Sublist cs := by
  induction cs generalizing i with
  | nil => exact .slnil
  | cons c cs ih =>
    unfold landing
    split
    · exact (ih _).cons _
    · exact (ih _).cons_cons _

/-- The bytes kept on their way are some of the row, in its order. -/
theorem lagging_sublist (hold : BitVec 4) (cs : List Host.Cell) (i : Nat) : (lagging hold i cs).Sublist cs := by
  induction cs generalizing i with
  | nil => exact .slnil
  | cons c cs ih =>
    unfold lagging
    split
    · exact (ih _).cons_cons _
    · exact (ih _).cons _

theorem landing_mem {hold : BitVec 4} {cs : List Host.Cell} {i : Nat} {c : Host.Cell} (h : c ∈ landing hold i cs) :
    c ∈ cs := (landing_sublist hold cs i).subset h

theorem lagging_mem {hold : BitVec 4} {cs : List Host.Cell} {i : Nat} {c : Host.Cell} (h : c ∈ lagging hold i cs) :
    c ∈ cs := (lagging_sublist hold cs i).subset h

theorem lagging_length_le (hold : BitVec 4) (cs : List Host.Cell) (i : Nat) :
    (lagging hold i cs).length ≤ cs.length := (lagging_sublist hold cs i).length_le

/-- With nothing held every byte lands. -/
@[simp] theorem landing_zero (cs : List Host.Cell) (i : Nat) : landing 0#4 i cs = cs := by
  induction cs generalizing i with
  | nil => rfl
  | cons c cs ih => simp [landing, ih]

/-- With nothing held no byte stays on its way. -/
@[simp] theorem lagging_zero (cs : List Host.Cell) (i : Nat) : lagging 0#4 i cs = [] := by
  induction cs generalizing i with
  | nil => rfl
  | cons c cs ih => simp [lagging, ih]

end Sys2Proof.Machine
end

