-- ==== Sys2Proof/Laws/Operands.lean ====
section
/-! SUPPORT. What the operand and address operations give: ranges, closed forms, and the four bytes of a sample. -/

namespace Sys2Proof.Machine

theorem two_pow_pos (n : Nat) : (0 : Int) < 2 ^ n := by positivity

theorem wrap_lt (aw : Nat) (x : Int) : wrap aw x < 2 ^ aw := by
  have h1 := Int.emod_nonneg x (two_pow_pos aw).ne'
  have h2 := Int.emod_lt_of_pos x (two_pow_pos aw)
  unfold wrap
  zify
  rwa [Int.toNat_of_nonneg h1]

theorem zext_lt (n v : Nat) : zext n v < 2 ^ n := Nat.mod_lt _ (by positivity)

theorem zext_of_lt {n v : Nat} (h : v < 2 ^ n) : zext n v = v := Nat.mod_eq_of_lt h

/-- The wrapped value as an integer. -/
theorem wrap_cast (aw : Nat) (x : Int) : (wrap aw x : Int) = x % (2 : Int) ^ aw := by
  unfold wrap
  exact Int.toNat_of_nonneg (Int.emod_nonneg x (two_pow_pos aw).ne')

/-- Integers that differ by a multiple of the modulus wrap alike. -/
theorem wrap_congr {aw : Nat} {x y : Int} (h : x % (2 : Int) ^ aw = y % (2 : Int) ^ aw) : wrap aw x = wrap aw y := by
  unfold wrap
  rw [h]

/-- Wrapping a sum, one term of which is wrapped already. -/
theorem wrap_add_wrap (aw : Nat) (x y : Int) : wrap aw (wrap aw x + y) = wrap aw (x + y) := by
  refine wrap_congr ?_
  rw [wrap_cast, Int.emod_add_emod]

theorem wrap_of_lt {aw v : Nat} (h : v < 2 ^ aw) : wrap aw (v : Int) = v := by
  unfold wrap
  rw [Int.emod_eq_of_lt (by omega) (by exact_mod_cast h)]
  simp

/-- A sign-extended pattern is in the range of its width. -/
theorem sext_fits {n : Nat} (hn : 1 ≤ n) (v : Nat) : FitsSigned n (sext n v) := by
  obtain ⟨m, rfl⟩ : ∃ m, n = m + 1 := ⟨n - 1, by omega⟩
  have h1 : v % 2 ^ (m + 1) < 2 ^ (m + 1) := Nat.mod_lt _ (by positivity)
  have h2 : (2 : Nat) ^ (m + 1) = 2 * 2 ^ m := by ring
  have h3 : (2 : Int) ^ (m + 1) = 2 * 2 ^ m := by ring
  unfold FitsSigned sext
  generalize hr : v % 2 ^ (m + 1) = r at *
  have h4 : ((2 ^ m : Nat) : Int) = 2 ^ m := by push_cast; rfl
  rw [Nat.add_sub_cancel]
  split <;> constructor <;> omega

/-- A sign-extended pattern is its pattern up to the modulus (R84). -/
theorem sext_emod (n v : Nat) : sext n v % (2 : Int) ^ n = (v : Int) % (2 : Int) ^ n := by
  unfold sext
  split
  · push_cast
    exact Int.emod_emod_of_dvd _ (dvd_refl _)
  · push_cast
    rw [Int.sub_emod_right, Int.emod_emod_of_dvd _ (dvd_refl _)]

/-! ### The running pointers in closed form (R52, R53) -/

theorem srcAddr_lt (aw src ss i : Nat) : srcAddr aw src ss i < 2 ^ aw := wrap_lt _ _

theorem dstAddr_lt (aw dst ds i : Nat) : dstAddr aw dst ds i < 2 ^ aw := wrap_lt _ _

theorem srcAddr_zero (aw src ss : Nat) : srcAddr aw src ss 0 = zext aw src := by
  unfold srcAddr zext wrap
  simp only [Nat.cast_zero, zero_mul, add_zero]
  norm_cast

theorem dstAddr_zero (aw dst ds : Nat) : dstAddr aw dst ds 0 = zext aw dst := by
  unfold dstAddr zext wrap
  simp only [Nat.cast_zero, zero_mul, add_zero]
  norm_cast

/-- One advance of `SP` is one octet on (R52, R110). -/
theorem nextSp_srcAddr (aw src ss i : Nat) :
    nextSp aw (srcAddr aw src ss i) (sext aw ss) = srcAddr aw src ss (i + 1) := by
  unfold nextSp srcAddr
  rw [wrap_add_wrap]
  congr 1
  push_cast
  ring

/-- One advance of `DP` is one sample on (R53, R110). -/
theorem nextDp_dstAddr (aw dst ds i : Nat) :
    nextDp aw (dstAddr aw dst ds i) (sext aw ds) = dstAddr aw dst ds (i + 1) := by
  unfold nextDp dstAddr
  rw [wrap_add_wrap]
  congr 1
  push_cast
  ring

/-- The octets of a command that starts where another stands after `a` of its octets (R114). -/
theorem srcAddr_from (aw src ss a i : Nat) : srcAddr aw (srcAddr aw src ss a) ss i = srcAddr aw src ss (a + i) := by
  show wrap aw (wrap aw _ + _) = _
  rw [wrap_add_wrap]
  unfold srcAddr
  congr 1
  push_cast
  ring

/-- The samples of a command that starts where another stands after `a` of its samples (R114). -/
theorem dstAddr_from (aw dst ds a i : Nat) : dstAddr aw (dstAddr aw dst ds a) ds i = dstAddr aw dst ds (a + i) := by
  show wrap aw (wrap aw _ + _) = _
  rw [wrap_add_wrap]
  unfold dstAddr
  congr 1
  push_cast
  ring

/-! ### The four bytes of a sample (R53 to R55) -/

theorem byteAddr_lt (aw dp k : Nat) : byteAddr aw dp k < 2 ^ aw := wrap_lt _ _

/-- The address of a byte of a sample, on natural numbers. -/
theorem byteAddr_eq (aw dp k : Nat) : byteAddr aw dp k = (dp + k) % 2 ^ aw := by
  unfold byteAddr wrap
  norm_cast

/-- The four bytes of a sample have distinct addresses (R6: `ADDR_W >= 3`). -/
theorem byteAddr_inj {aw dp k q : Nat} (ha : 2 ≤ aw) (hk : k < sampleBytes) (hq : q < sampleBytes)
    (h : byteAddr aw dp k = byteAddr aw dp q) : k = q := by
  have h4 : (2 : Nat) ^ 2 ≤ 2 ^ aw := Nat.pow_le_pow_right (by norm_num) ha
  rw [byteAddr_eq, byteAddr_eq] at h
  have := Nat.ModEq.add_left_cancel' dp h
  rwa [Nat.ModEq, Nat.mod_eq_of_lt (lt_of_lt_of_le hk h4), Nat.mod_eq_of_lt (lt_of_lt_of_le hq h4)] at this

theorem mem_sampleCells {aw dp : Nat} {w : BitVec 32} {c : Host.Cell} :
    c ∈ sampleCells aw dp w ↔ ∃ k < sampleBytes, c = (byteAddr aw dp k, sampleByte w k) := by
  simp only [sampleCells, List.mem_map, List.mem_range]
  exact ⟨fun ⟨k, hk, h⟩ => ⟨k, hk, h.symm⟩, fun ⟨k, hk, h⟩ => ⟨k, hk, h.symm⟩⟩

theorem sampleCells_length (aw dp : Nat) (w : BitVec 32) : (sampleCells aw dp w).length = sampleBytes := by
  simp [sampleCells]

theorem sampleCells_nodup {aw : Nat} (ha : 2 ≤ aw) (dp : Nat) (w : BitVec 32) :
    ((sampleCells aw dp w).map (·.1)).Nodup := by
  unfold sampleCells
  rw [List.map_map, List.nodup_map_iff_inj_on List.nodup_range]
  intro k hk q hq h
  exact byteAddr_inj ha (List.mem_range.mp hk) (List.mem_range.mp hq) h

/-- Byte store `k` of a sample. -/
theorem sampleCells_getElem {aw dp k : Nat} (w : BitVec 32) (hk : k < sampleBytes) :
    (sampleCells aw dp w)[k]? = some (byteAddr aw dp k, sampleByte w k) := by
  have hk' : k < 4 := hk
  simp [sampleCells, hk']

end Sys2Proof.Machine
end

