-- ==== Sys2Proof/Laws/PerInstr.lean ====
section
/-! SUPPORT. Statements made once for each command. -/

namespace Sys2Proof.Laws

/-- R87: the first word of a command's packet alone gives the packet's length. -/
def FirstWordGivesLength.Statement (i : Instr) : Prop :=
  ∃ w ws, encode i = w :: ws ∧ packetLength (BitVec.ofNat 32 w) = (encode i).length

theorem FirstWordGivesLength.reset : FirstWordGivesLength.Statement .reset := ⟨1, [], rfl, by decide⟩

theorem FirstWordGivesLength.translate (count src sstride : Nat) (ord : BitOrder) (dst dstride : Nat) :
    FirstWordGivesLength.Statement (.translate count src sstride ord dst dstride) :=
  ⟨translateW0 ord, _, rfl, by simp [packetLength, decodeW0_translate, encode]⟩

end Sys2Proof.Laws
end

