-- ==== Sys2Proof/Laws/State.lean ====
section
/-! SUPPORT. One lemma per field per update of the state, an instance and the in-flight registers, and what looking an
instance up after an update gives. -/

namespace Sys2Proof.Machine

section SetEngine
variable (s : State) (n : Nat) (e : Engine)

@[simp] theorem State.setEngine_cfg : (s.setEngine n e).cfg = s.cfg := rfl
@[simp] theorem State.setEngine_mem : (s.setEngine n e).mem = s.mem := rfl
@[simp] theorem State.setEngine_engines : (s.setEngine n e).engines = s.engines.set n e := rfl
@[simp] theorem State.setEngine_host : (s.setEngine n e).host = s.host := rfl
@[simp] theorem State.setEngine_turns : (s.setEngine n e).turns = s.turns := rfl
@[simp] theorem State.setEngine_cur : (s.setEngine n e).cur = s.cur := rfl
@[simp] theorem State.setEngine_hold : (s.setEngine n e).hold = s.hold := rfl
@[simp] theorem State.setEngine_cut : (s.setEngine n e).cut = s.cut := rfl

/-- Replacing an instance twice is replacing it once. -/
@[simp] theorem State.setEngine_setEngine (e' : Engine) : (s.setEngine n e).setEngine n e' = s.setEngine n e' := by
  simp [State.setEngine]

variable {s n e}

/-- The instance just replaced. -/
theorem State.setEngine_lookup_same {e' : Engine} (h : s.engines[n]? = some e') :
    (s.setEngine n e).engines[n]? = some e := by
  obtain ⟨hn, -⟩ := List.getElem?_eq_some_iff.mp h
  simp [hn]

/-- Replacing an instance by itself changes nothing. -/
theorem State.setEngine_self (h : s.engines[n]? = some e) : s.setEngine n e = s := by
  have : s.engines.set n e = s.engines := by
    obtain ⟨hn, rfl⟩ := List.getElem?_eq_some_iff.mp h
    exact List.set_getElem_self hn
  simp [State.setEngine, this]

/-- Another instance is untouched. -/
theorem State.setEngine_lookup_other {m : Nat} (h : m ≠ n) : (s.setEngine n e).engines[m]? = s.engines[m]? := by
  simp [List.getElem?_set_ne (Ne.symm h)]

end SetEngine

section TakePacket
variable (s : State) (e : Engine)

@[simp] theorem State.takePacket_cfg : (s.takePacket e).cfg = s.cfg := rfl
@[simp] theorem State.takePacket_mem : (s.takePacket e).mem = s.mem := rfl
@[simp] theorem State.takePacket_host : (s.takePacket e).host = s.host := rfl
@[simp] theorem State.takePacket_turns : (s.takePacket e).turns = s.turns := rfl
@[simp] theorem State.takePacket_cur : (s.takePacket e).cur = s.cur := rfl
@[simp] theorem State.takePacket_hold : (s.takePacket e).hold = s.hold := rfl
@[simp] theorem State.takePacket_cut : (s.takePacket e).cut = s.cut := rfl
@[simp] theorem State.takePacket_engines :
    (s.takePacket e).engines = s.engines.set s.cur { e with port := { e.port with words := [] } } := rfl

end TakePacket

section Iterated
variable (s : State) (e : Engine) (f : Flight)

@[simp] theorem iterated_cfg : (iterated s e f).cfg = s.cfg := rfl
@[simp] theorem iterated_host : (iterated s e f).host = s.host := rfl
@[simp] theorem iterated_turns : (iterated s e f).turns = s.turns := rfl
@[simp] theorem iterated_cur : (iterated s e f).cur = s.cur := rfl
@[simp] theorem iterated_hold : (iterated s e f).hold = s.hold := rfl
@[simp] theorem iterated_cut : (iterated s e f).cut = s.cut := rfl
@[simp] theorem iterated_mem : (iterated s e f).mem = s.mem.storeAll (landing s.hold 0 (storesOf s e f)) := rfl
@[simp] theorem drained_cfg : (drained s e f).cfg = s.cfg := rfl
@[simp] theorem drained_host : (drained s e f).host = s.host := rfl
@[simp] theorem drained_turns : (drained s e f).turns = s.turns := rfl
@[simp] theorem drained_cur : (drained s e f).cur = s.cur := rfl
@[simp] theorem drained_hold : (drained s e f).hold = s.hold := rfl
@[simp] theorem drained_cut : (drained s e f).cut = s.cut := rfl
@[simp] theorem drained_mem : (drained s e f).mem = s.mem.storeAll (landing s.hold 0 f.out) := rfl

end Iterated

section Clear
variable (e : Engine)

@[simp] theorem Engine.clear_ring : e.clear.ring = HistRing.fresh := rfl
@[simp] theorem Engine.clear_flight : e.clear.flight = none := rfl
@[simp] theorem Engine.clear_port : e.clear.port = e.port := rfl

end Clear

section Advance
variable (f : Flight) (aw : Nat) (out : List Host.Cell)

@[simp] theorem Flight.advance_rem : (f.advance aw out).rem = f.rem - 1 := rfl
@[simp] theorem Flight.advance_sp : (f.advance aw out).sp = nextSp aw f.sp f.ss := rfl
@[simp] theorem Flight.advance_dp : (f.advance aw out).dp = nextDp aw f.dp f.ds := rfl
@[simp] theorem Flight.advance_ss : (f.advance aw out).ss = f.ss := rfl
@[simp] theorem Flight.advance_ds : (f.advance aw out).ds = f.ds := rfl
@[simp] theorem Flight.advance_ord : (f.advance aw out).ord = f.ord := rfl
@[simp] theorem Flight.advance_out : (f.advance aw out).out = out := rfl

end Advance

section Accepted
variable (aw count src sstride : Nat) (ord : BitOrder) (dst dstride : Nat)

@[simp] theorem accepted_rem : (accepted aw count src sstride ord dst dstride).rem = zext aw count := rfl
@[simp] theorem accepted_sp : (accepted aw count src sstride ord dst dstride).sp = zext aw src := rfl
@[simp] theorem accepted_dp : (accepted aw count src sstride ord dst dstride).dp = zext aw dst := rfl
@[simp] theorem accepted_ss : (accepted aw count src sstride ord dst dstride).ss = sext aw sstride := rfl
@[simp] theorem accepted_ds : (accepted aw count src sstride ord dst dstride).ds = sext aw dstride := rfl
@[simp] theorem accepted_ord : (accepted aw count src sstride ord dst dstride).ord = ord := rfl
@[simp] theorem accepted_out : (accepted aw count src sstride ord dst dstride).out = [] := rfl

end Accepted

/-- An in-flight command settles to itself or, when nothing is left of it, to nothing. -/
theorem Flight.settle_cases (f : Flight) :
    (f.settle = none ∧ f.rem = 0 ∧ f.out = []) ∨ (f.settle = some f ∧ (f.rem ≠ 0 ∨ f.out ≠ [])) := by
  unfold Flight.settle
  by_cases h1 : f.rem = 0 <;> by_cases h2 : f.out = [] <;> simp [h1, h2]

section HardReset
variable (s : State)

@[simp] theorem State.hardReset_cfg : s.hardReset.cfg = s.cfg := rfl
@[simp] theorem State.hardReset_mem : s.hardReset.mem = s.mem := rfl
@[simp] theorem State.hardReset_host : s.hardReset.host = s.host := rfl
@[simp] theorem State.hardReset_turns : s.hardReset.turns = s.turns := rfl
@[simp] theorem State.hardReset_cut : s.hardReset.cut = (s.cut || !s.engines.all Engine.free) := rfl
@[simp] theorem State.hardReset_engines : s.hardReset.engines = s.engines.map fun _ => Engine.fresh := rfl

end HardReset

section Deliver
variable (s : State) (n : Nat) (e : Engine) (words : List Nat) (launch : Launch)

@[simp] theorem State.deliver_cfg : (s.deliver n e words launch).cfg = s.cfg := rfl
@[simp] theorem State.deliver_mem : (s.deliver n e words launch).mem = s.mem := rfl
@[simp] theorem State.deliver_host : (s.deliver n e words launch).host = s.host := rfl
@[simp] theorem State.deliver_turns : (s.deliver n e words launch).turns = s.turns := rfl
@[simp] theorem State.deliver_cut : (s.deliver n e words launch).cut = s.cut := rfl

end Deliver

end Sys2Proof.Machine
end

