-- ==== Sys2Proof/Laws/Step.lean ====
section
/-! SUPPORT. Once for each shared operation of the machine, everything it can do when it answers a next state. -/

namespace Sys2Proof.Machine

/-! ### Legal states -/

theorem Flight.ok_iff {aw : Nat} {l : Launch} {f : Flight} :
    f.ok aw l = true ↔
      f.rem < 2 ^ aw ∧ f.sp < 2 ^ aw ∧ f.dp < 2 ^ aw ∧ FitsSigned aw f.ss ∧ FitsSigned aw f.ds ∧
        f.out.length ≤ sampleBytes ∧ (f.out.map (·.1)).Nodup ∧
        (∀ c ∈ f.out, c.1 < 2 ^ aw ∧ l.canWrite c.1 = true) ∧ (f.rem ≠ 0 ∨ f.out ≠ []) := by
  simp only [Flight.ok, Bool.and_eq_true, decide_eq_true_eq, List.all_eq_true, and_assoc]

theorem Engine.ok_iff {aw : Nat} {e : Engine} :
    e.ok aw = true ↔
      (e.port.words = [] ∨ onePacket e.port.words = true ∧ e.flight = none) ∧
        ∀ f, e.flight = some f → f.ok aw e.port.launch = true := by
  cases hf : e.flight <;> simp [Engine.ok, hf, List.isEmpty_iff]

theorem Engine.free_iff {e : Engine} : e.free = true ↔ e.flight = none ∧ e.port.words = [] := by
  simp [Engine.free, List.isEmpty_iff]

/-- An instance whose command goes on, or is complete, with nothing on its port, is legal when what goes on is. -/
theorem Engine.ok_settle {aw : Nat} {r : HistRing} {f : Flight} {p : Port} (hp : p.words = [])
    (h : f.rem ≠ 0 ∨ f.out ≠ [] → f.ok aw p.launch = true) :
    Engine.ok aw { ring := r, flight := f.settle, port := p } = true := by
  refine Engine.ok_iff.mpr ⟨.inl hp, fun g hg => ?_⟩
  replace hg : f.settle = some g := hg
  rcases Flight.settle_cases f with ⟨hs, _⟩ | ⟨hs, hk⟩
  · rw [hs] at hg
    cases hg
  · rw [hs] at hg
    cases hg
    exact h hk

/-! ### Turns -/

/-- What runs only on an idle instance answers a next state through that instance. -/
theorem onIdle_next {s t : State} {f : Engine → Host.Outcome State Fault Refusal} (h : s.onIdle f = .next t) :
    ∃ e, s.engines[s.cur]? = some e ∧ e.flight = none ∧ f e = .next t := by
  unfold State.onIdle at h
  split at h
  · cases h
  · rename_i e he
    split at h
    · cases h
    · rename_i hb
      exact ⟨e, he, by simpa [Engine.busy] using hb, h⟩

/-- On an idle instance `onIdle` runs its argument. -/
theorem onIdle_of_idle {s : State} {e : Engine} (f : Engine → Host.Outcome State Fault Refusal)
    (he : s.engines[s.cur]? = some e) (hi : e.flight = none) : s.onIdle f = f e := by
  simp [State.onIdle, he, Engine.busy, hi]

/-- On a busy instance `onIdle` refuses. -/
theorem onIdle_of_busy {s : State} {e : Engine} {g : Flight} (f : Engine → Host.Outcome State Fault Refusal)
    (he : s.engines[s.cur]? = some e) (hi : e.flight = some g) : s.onIdle f = .refused (.busy s.cur) := by
  simp [State.onIdle, he, Engine.busy, hi]

/-- The loop's turn answers a next state by completing a command with nothing left to do, or by an admitted iteration. -/
theorem iterate_next {s t : State} {e : Engine} {f : Flight} (h : iterate s e f = .next t) :
    (f.rem = 0 ∧ t = s.setEngine s.cur { e with flight := none }) ∨
      (f.rem ≠ 0 ∧ e.port.launch.canRead f.sp = true ∧
        (∀ c ∈ storesOf s e f, e.port.launch.canWrite c.1 = true) ∧ t = iterated s e f) := by
  unfold iterate at h
  split at h
  · rename_i hr
    cases h
    exact .inl ⟨hr, rfl⟩
  · rename_i hr
    split at h
    · cases h
    · rename_i hc
      split at h
      · cases h
      · rename_i hw
        cases h
        exact .inr ⟨hr, by simpa using hc, by simpa using hw, rfl⟩

/-- An admitted iteration. -/
theorem iterate_of_admitted {s : State} {e : Engine} {f : Flight} (hr : f.rem ≠ 0)
    (hc : e.port.launch.canRead f.sp = true) (hw : ∀ c ∈ storesOf s e f, e.port.launch.canWrite c.1 = true) :
    iterate s e f = .next (iterated s e f) := by
  have hw' : ¬(storesOf s e f).all (fun c => e.port.launch.canWrite c.1) = false := by simpa using hw
  simp [iterate, hr, hc, hw']

/-- What a command can do when it answers a next state. -/
theorem exec_next {i : Instr} {s t : State} (h : exec i s = .next t) :
    ∃ e, s.engines[s.cur]? = some e ∧ e.flight = none ∧
      ((i = .reset ∧ t = s.setEngine s.cur e.clear) ∨
        ∃ count src ss ord dst ds, i = .translate count src ss ord dst ds ∧
          iterate s e (accepted s.cfg.addrW count src ss ord dst ds) = .next t) := by
  cases i with
  | reset =>
    obtain ⟨e, he, hi, h⟩ := onIdle_next h
    cases h
    exact ⟨e, he, hi, .inl ⟨rfl, rfl⟩⟩
  | translate count src ss ord dst ds =>
    obtain ⟨e, he, hi, h⟩ := onIdle_next h
    exact ⟨e, he, hi, .inr ⟨_, _, _, _, _, _, rfl, h⟩⟩

/-- What the host's turn can do when it answers a next state. -/
theorem hostTurn_next {s t : State} (h : hostTurn s = .next t) :
    t = s ∨
      (∃ n words launch acts e, s.host = .issue n words launch :: acts ∧ s.engines[n]? = some e ∧ e.free = true ∧
        onePacket words = true ∧ t = State.deliver { s with host := acts } n e words launch) ∨
      (∃ a b acts, s.host = .store a b :: acts ∧ a < 2 ^ s.cfg.addrW ∧
        t = { s with host := acts, mem := s.mem.write a b }) ∨
      (∃ n acts e, s.host = .await n :: acts ∧ s.engines[n]? = some e ∧ e.free = true ∧ t = { s with host := acts }) ∨
      ∃ acts, s.host = .hardReset :: acts ∧ t = State.hardReset { s with host := acts } := by
  unfold hostTurn at h
  split at h
  · cases h
    exact .inl rfl
  · rename_i n words launch acts hh
    split at h
    · cases h
    · rename_i e he
      split at h
      · cases h
        exact .inl rfl
      · rename_i hf
        split at h
        · rename_i hp
          cases h
          exact .inr (.inl ⟨n, words, launch, acts, e, hh, he, by simpa using hf, hp, rfl⟩)
        · cases h
  · rename_i a b acts hh
    split at h
    · rename_i ha
      cases h
      exact .inr (.inr (.inl ⟨a, b, acts, hh, ha, rfl⟩))
    · cases h
  · rename_i n acts hh
    split at h
    · cases h
    · rename_i e he
      split at h
      · rename_i hf
        cases h
        exact .inr (.inr (.inr (.inl ⟨n, acts, e, hh, he, hf, rfl⟩)))
      · cases h
        exact .inl rfl
  · rename_i acts hh
    cases h
    exact .inr (.inr (.inr (.inr ⟨acts, hh, rfl⟩)))

/-- What an instance's turn can do when it answers a next state. -/
theorem engineTurn_next {s t : State} (h : engineTurn s = .next t) :
    (s.work = .idle ∧ t = s) ∨
      (∃ e f, s.engines[s.cur]? = some e ∧ e.flight = some f ∧ f.out ≠ [] ∧ t = drained s e f) ∨
      (∃ e f, s.engines[s.cur]? = some e ∧ e.flight = some f ∧ f.out = [] ∧ iterate s e f = .next t) ∨
      ∃ e i, s.engines[s.cur]? = some e ∧ e.flight = none ∧
        decode s.cfg.addrW e.port.words = .ok i [] ∧ exec i (s.takePacket e) = .next t := by
  unfold engineTurn at h
  split at h
  · rename_i hw
    cases h
    exact .inl ⟨hw, rfl⟩
  · rename_i e f hw
    unfold State.work at hw
    split at hw
    · cases hw
    · rename_i e' he
      split at hw
      · unfold portWork at hw
        split at hw
        · cases hw
        · split at hw <;> cases hw
      · rename_i f' hf
        split at hw
        · cases hw
        · rename_i ho
          cases hw
          cases h
          exact .inr (.inl ⟨_, _, he, hf, ho, rfl⟩)
  · rename_i e f hw
    unfold State.work at hw
    split at hw
    · cases hw
    · rename_i e' he
      split at hw
      · unfold portWork at hw
        split at hw
        · cases hw
        · split at hw <;> cases hw
      · rename_i f' hf
        split at hw
        · rename_i ho
          cases hw
          exact .inr (.inr (.inl ⟨_, _, he, hf, ho, h⟩))
        · cases hw
  · rename_i i s' hw
    unfold State.work at hw
    split at hw
    · cases hw
    · rename_i e he
      split at hw
      · rename_i hf
        unfold portWork at hw
        split at hw
        · cases hw
        · rename_i w ws hws
          split at hw
          · rename_i i' hd
            cases hw
            exact .inr (.inr (.inr ⟨e, _, he, hf, hws ▸ hd, h⟩))
          · cases hw
          · cases hw
      · split at hw <;> cases hw
  · cases h

/-- What a step can do when it answers a next state: nobody moves, the host moves, or an instance moves. -/
theorem step_next {s t : State} (h : step s = .next t) :
    t = s ∨ (∃ ts, hostTurn { s with turns := ts } = .next t) ∨
      ∃ n hold ts, engineTurn { s with turns := ts, cur := n, hold := hold } = .next t := by
  unfold step at h
  split at h
  · rename_i u ts hts
    cases u with
    | host => exact .inr (.inl ⟨ts, h⟩)
    | engine n hold => exact .inr (.inr ⟨n, hold, ts, h⟩)
  · rename_i hts
    split at h
    · rename_i u hu
      cases u with
      | host => exact .inr (.inl ⟨s.turns, h⟩)
      | engine n hold => exact .inr (.inr ⟨n, hold, s.turns, h⟩)
    · cases h
      exact .inl rfl

@[simp] theorem runSteps_zero (s : State) : runSteps 0 s = .next s := rfl

/-- A run whose first step answers a next state. -/
theorem runSteps_succ_of_next {k : Nat} {s t : State} (h : step s = .next t) : runSteps (k + 1) s = runSteps k t := by
  simp only [runSteps, h]

/-- A run whose first step stops with a fault. -/
theorem runSteps_succ_of_fault {k : Nat} {s : State} {r : Fault} (h : step s = .fault r) :
    runSteps (k + 1) s = .fault r := by
  simp only [runSteps, h]

/-- Steps run one after another are one run. -/
theorem runSteps_add {a b : Nat} {s t : State} (h : runSteps a s = .next t) : runSteps (a + b) s = runSteps b t := by
  induction a generalizing s with
  | zero =>
    cases h
    rw [Nat.zero_add]
  | succ a ih =>
    simp only [runSteps] at h
    split at h
    · rename_i u hu
      rw [Nat.succ_add, runSteps_succ_of_next hu]
      exact ih h
    · cases h
    · cases h

/-- A step whose first settled turn is instance `n`'s. -/
theorem step_engine_turn {s : State} {n : Nat} {hold : BitVec 4} {ts : List Turn} (h : s.turns = .engine n hold :: ts) :
    step s = engineTurn { s with turns := ts, cur := n, hold := hold } := by
  simp [step, h, takeTurn]

/-- An idle instance's turn with a packet on its port. -/
theorem engineTurn_accept {s : State} {e : Engine} {i : Instr} (he : s.engines[s.cur]? = some e)
    (hi : e.flight = none) (hd : decode s.cfg.addrW e.port.words = .ok i []) :
    engineTurn s = exec i (s.takePacket e) := by
  cases hw : e.port.words with
  | nil => simp [hw, decode] at hd
  | cons w ws =>
    rw [hw] at hd
    simp [engineTurn, State.work, he, hi, portWork, hw, hd]

/-- A busy instance's turn with no byte on its way. -/
theorem engineTurn_iterate {s : State} {e : Engine} {f : Flight} (he : s.engines[s.cur]? = some e)
    (hf : e.flight = some f) (ho : f.out = []) : engineTurn s = iterate s e f := by
  simp [engineTurn, State.work, he, hf, ho]

/-- A busy instance's turn with bytes on their way. -/
theorem engineTurn_drain {s : State} {e : Engine} {f : Flight} (he : s.engines[s.cur]? = some e)
    (hf : e.flight = some f) (ho : f.out ≠ []) : engineTurn s = .next (drained s e f) := by
  simp [engineTurn, State.work, he, hf, ho]

end Sys2Proof.Machine
end

