-- ==== Sys2Proof/Laws/Translate.lean ====
section
/-! SUPPORT. The iterations of one TRANSLATE: the in-flight registers before iteration `i`, and what the iteration does. -/

namespace Sys2Proof.Machine

/-- The byte stores of an iteration are admitted when each of its four addresses is (R61). -/
theorem stores_canWrite_iff {s : State} {e : Engine} {f : Flight} :
    (∀ c ∈ storesOf s e f, e.port.launch.canWrite c.1 = true) ↔
      ∀ k, k < sampleBytes → e.port.launch.canWrite (byteAddr s.cfg.addrW f.dp k) = true := by
  constructor
  · intro h k hk
    exact h _ (mem_sampleCells.mpr ⟨k, hk, rfl⟩)
  · intro h c hc
    obtain ⟨k, hk, rfl⟩ := mem_sampleCells.mp hc
    exact h k hk

/-- The operands of a well-formed TRANSLATE fit the address width. -/
theorem translate_wf {aw count src ss dst ds : Nat} {ord : BitOrder}
    (h : (Instr.translate count src ss ord dst ds).wf aw = true) :
    count < 2 ^ aw ∧ src < 2 ^ aw ∧ ss < 2 ^ aw ∧ dst < 2 ^ aw ∧ ds < 2 ^ aw := by
  simp only [Instr.wf, Bool.and_eq_true, decide_eq_true_eq] at h
  tauto

/-- An iteration with no byte held back. -/
theorem iterated_of_no_hold {s : State} (e : Engine) (f : Flight) (h : s.hold = 0) :
    iterated s e f =
      { s with
        mem := s.mem.storeAll (storesOf s e f)
        engines := s.engines.set s.cur
          { ring := e.ring.push (s.mem.read f.sp)
            flight := (f.advance s.cfg.addrW []).settle
            port := e.port } } := by
  have hl : ∀ cs, landing (0 : BitVec 4) 0 cs = cs := fun cs => landing_zero cs 0
  have hg : ∀ cs, lagging (0 : BitVec 4) 0 cs = [] := fun cs => lagging_zero cs 0
  unfold iterated
  rw [h, hl, hg]
  rfl

/-- The in-flight registers before iteration `i` (R35, R52, R53). -/
def Job.registers (aw : Nat) (j : Job) (i : Nat) : Flight where
  rem := j.count - i
  sp := srcAddr aw j.src j.sstride i
  dp := dstAddr aw j.dst j.dstride i
  ss := sext aw j.sstride
  ds := sext aw j.dstride
  ord := j.ord
  out := []

/-- Acceptance loads the registers of iteration 0. -/
theorem accepted_eq_registers {aw : Nat} {j : Job} (h : j.instr.wf aw = true) :
    accepted aw j.count j.src j.sstride j.ord j.dst j.dstride = j.registers aw 0 := by
  have hc := (translate_wf h).1
  unfold accepted Job.registers
  rw [srcAddr_zero, dstAddr_zero, zext_of_lt hc]
  rfl

/-- An iteration advances the registers to those of the next one, or, after the last, leaves the instance idle. -/
theorem registers_advance {aw : Nat} {j : Job} {i : Nat} (h : i < j.count) :
    ((j.registers aw i).advance aw []).settle =
      if i + 1 = j.count then none else some (j.registers aw (i + 1)) := by
  have hr : ((j.registers aw i).advance aw []).rem = j.count - i - 1 := rfl
  unfold Flight.settle
  rw [hr, Flight.advance_out]
  by_cases hl : i + 1 = j.count
  · rw [if_pos hl, if_pos ⟨by omega, rfl⟩]
  · rw [if_neg hl, if_neg fun h0 => by have := h0.1; omega]
    simp only [Flight.advance, Job.registers, nextSp_srcAddr, nextDp_dstAddr, Nat.sub_sub]

/-- Iteration `i` of a TRANSLATE whose ring and memory are `x`, with no byte held back: an admitted one leaves those of
`Job.after`'s next step. -/
theorem iterate_registers {s : State} {e : Engine} {j : Job} {i : Nat} (hi : i < j.count) (hh : s.hold = 0)
    (hr : e.port.launch.canRead (srcAddr s.cfg.addrW j.src j.sstride i) = true)
    (hw : ∀ k, k < sampleBytes → e.port.launch.canWrite (j.outAddr s.cfg.addrW i k) = true) :
    iterate s e (j.registers s.cfg.addrW i) =
      .next { s with
        mem := s.mem.storeAll
          (sampleCells s.cfg.addrW (dstAddr s.cfg.addrW j.dst j.dstride i)
            (i2f s.cfg.frac (e.ring.acc s.cfg (s.mem.read (srcAddr s.cfg.addrW j.src j.sstride i)) j.ord)))
        engines := s.engines.set s.cur
          { ring := e.ring.push (s.mem.read (srcAddr s.cfg.addrW j.src j.sstride i))
            flight := if i + 1 = j.count then none else some (j.registers s.cfg.addrW (i + 1))
            port := e.port } } := by
  have h0 : (j.registers s.cfg.addrW i).rem ≠ 0 := by
    show j.count - i ≠ 0
    omega
  rw [iterate_of_admitted h0 hr (stores_canWrite_iff.mpr hw), iterated_of_no_hold e _ hh, registers_advance hi]
  rfl

/-! ### Torn writes (R58) -/

/-- The stored and the kept bytes of a step, counted from any place in the row. -/
theorem landing_lagging_eq_filter (hold : BitVec 4) (cs : List Host.Cell) (i : Nat) :
    landing hold i cs = ((cs.zipIdx i).filter fun c => hold.getLsbD c.2 == false).map (·.1) ∧
      lagging hold i cs = ((cs.zipIdx i).filter fun c => hold.getLsbD c.2 == true).map (·.1) := by
  induction cs generalizing i with
  | nil => exact ⟨rfl, rfl⟩
  | cons c cs ih => cases hb : hold.getLsbD i <;> simp [landing, lagging, hb, ih (i + 1)]

/-- The bytes a step stores are the unmarked ones. -/
theorem landing_eq_marked (hold : BitVec 4) (cs : List Host.Cell) : landing hold 0 cs = marked hold false cs :=
  (landing_lagging_eq_filter hold cs 0).1

/-- The bytes a step keeps on their way are the marked ones. -/
theorem lagging_eq_marked (hold : BitVec 4) (cs : List Host.Cell) : lagging hold 0 cs = marked hold true cs :=
  (landing_lagging_eq_filter hold cs 0).2

end Sys2Proof.Machine
end

