-- ==== Sys2Proof/Tests/Slice0.lean ====
section
/-! SUPPORT. The model's own tests, each about one word, one value or one step, with results taken from spec/; and for each
statement that has hypotheses a state and operands that meet all of them. -/

namespace Sys2Proof.Tests

open Sys2Proof Sys2Proof.Machine

/-! ### WellFormed: an ill-formed command for each check (R83) -/

theorem test_wf_accepts_the_largest_operands :
    (Instr.translate 4294967295 4294967295 4294967295 .lsbf 4294967295 4294967295).wf 32 = true := by decide
theorem test_wf_refuses_wide_count : (Instr.translate 4294967296 0 0 .msbf 0 0).wf 32 = false := by decide
theorem test_wf_refuses_wide_src : (Instr.translate 0 4294967296 0 .msbf 0 0).wf 32 = false := by decide
theorem test_wf_refuses_wide_sstride : (Instr.translate 0 0 4294967296 .msbf 0 0).wf 32 = false := by decide
theorem test_wf_refuses_wide_dst : (Instr.translate 0 0 0 .msbf 4294967296 0).wf 32 = false := by decide
theorem test_wf_refuses_wide_dstride : (Instr.translate 0 0 0 .msbf 0 4294967296).wf 32 = false := by decide
theorem test_wf_reset : Instr.reset.wf 32 = true := by decide

/-! ### Decode: words written out bit by bit (R81 to R83, R85, R93) -/

/-- RSV = 23 zeros, ORD = 0, OPC = 0000_0001. -/
theorem test_decode_reset : decode 32 [0b000000000000000000000000_00000001] = .ok .reset [] := by decide

/-- R93's third example: ORD = 1, OPC = 0000_0010; COUNT 3, SRC 0x1001, SSTRIDE 2, DST 0x2004, DSTRIDE 2. -/
theorem test_decode_translate_lsbf :
    decode 32 [0b00000000000000000000000_1_00000010, 0b11, 0b1000000000001, 0b10, 0b10000000000100, 0b10, 7] =
      .ok (.translate 3 0x1001 2 .lsbf 0x2004 2) [7] := by decide

/-- R93's fourth example, the strides -1, as one bit string (R83). -/
theorem test_decode_table_word_negative_strides :
    decodeTableWord 192 0xFFFFFFFF_0000200C_FFFFFFFF_00001003_00000004_00000002 =
      some (.translate 4 0x1003 0xFFFFFFFF .msbf 0x200C 0xFFFFFFFF) := by decide

/-- A row's word with fewer bits than the instruction has: the operand words are zeros. -/
theorem test_decode_table_word_short : decodeTableWord 32 0x102 = some (.translate 0 0 0 .lsbf 0 0) := by decide
theorem test_decode_table_word_reset : decodeTableWord 32 1 = some .reset := by decide

/-- The decoding vectors of 95_test_vectors.md 3.7. -/
theorem test_decode_invalid_words :
    decode 32 [0x00000000] = .rejected (.unassignedOpcode 0x00000000) ∧
    decode 32 [0x00000003] = .rejected (.unassignedOpcode 0x00000003) ∧
    decode 32 [0x000000FF] = .rejected (.unassignedOpcode 0x000000FF) ∧
    decode 32 [0x00000101] = .rejected (.resetWithOrd 0x00000101) ∧
    decode 32 [0x00000202] = .rejected (.reservedBits 0x00000202) ∧
    decode 32 [0x80000002] = .rejected (.reservedBits 0x80000002) ∧
    decode 32 [0x00010001] = .rejected (.reservedBits 0x00010001) := by decide

/-- Words that are not a whole packet (log 9). -/
theorem test_decode_incomplete :
    decode 32 [] = .rejected .noWord ∧ decode 32 [2, 0, 0, 0, 0] = .rejected .truncated ∧
      decode 32 [4294967297] = .rejected .wideWord ∧ decode 32 [2, 4294967296, 0, 0, 0, 0] = .rejected .wideWord := by
  decide

/-! ### Assembly (R90, R93) -/

theorem test_asm_prefix_and_comment :
    asmLine 32 "E1: TRANSLATE 3, 0x1001, 2, LSBF, 0x2004, 2 ; odd octets".toList =
      .command 1 (.translate 3 0x1001 2 .lsbf 0x2004 2) := by decide
theorem test_asm_reset : asmLine 32 "RESET".toList = .command 0 .reset := by decide
theorem test_asm_hex_digits : numeral "0x9aF".toList = some 2479 ∧ numeral "0xg".toList = none := by decide
theorem test_asm_lower_case_is_no_command : asmLine 32 "reset".toList = .malformed := by decide
theorem test_asm_comment_only : asmLine 32 "  ; nothing".toList = .blank := by decide

/-! ### The datapath: 95_test_vectors.md 3.1 to 3.5 -/

/-- The tap sets QUAD, ALT and EXT18 of 95_test_vectors.md 2. -/
def quad : Config where
  addrW := 32
  tw := 16
  frac := 0
  nInst := 2
  taps := (List.range 128).map fun n => ((n + 1) ^ 2 : Int)

def alt : Config := { quad with taps := (List.range 128).map fun n : Nat => (-1 : Int) ^ n * (n + 1) }

def ext18 : Config := { quad with tw := 18, frac := 24, taps := List.replicate 128 (-131072) }

/-- V-T2: the bit of age `8*k + j` is bit `j`. -/
theorem test_ctab_quad :
    ctab quad 0 0x01 = -202 ∧ ctab quad 0 0x80 = -76 ∧ ctab quad 3 0x01 = -5290 ∧ ctab quad 15 0x80 = -91276 := by
  decide +kernel

/-- V-T4. -/
theorem test_ctab_alt : ctab alt 0 0x02 = 0 ∧ ctab alt 5 0x55 = 356 ∧ ctab alt 15 0x80 = -252 := by decide +kernel

/-- V-T6: the extreme that `TW + 3` bits would not hold. -/
theorem test_ctab_extreme : ctab ext18 7 0x00 = 1048576 := by decide +kernel

/-- V-B1. -/
theorem test_rev8 : rev8 0x0F = 0xF0 ∧ rev8 0x12 = 0x48 ∧ rev8 0x4D = 0xB2 ∧ rev8 0x69 = 0x96 := by decide

/-- V-S1 and V-S2. -/
theorem test_accumulators_of_four_octets :
    HistRing.accs quad .msbf HistRing.fresh [0x01, 0x80, 0xFF, 0xA5] = [-707262, -706974, -705766, -702058] ∧
    HistRing.accs quad .lsbf HistRing.fresh [0x01, 0x80, 0xFF, 0xA5] = [-707136, -706750, -705542, -701834] := by
  decide +kernel

/-- The conversion vectors of 3.3: sign, fraction, the largest magnitude, the smallest normal number. -/
theorem test_i2f :
    i2f 0 (-707262) = 0xC92CABE0 ∧ i2f 1 3 = 0x3FC00000 ∧ i2f 7 (-112) = 0xBF600000 ∧ i2f 0 16777215 = 0x4B7FFFFF ∧
    i2f 0 (-16777216) = 0xCB800000 ∧ i2f 24 16777088 = 0x3F7FFF80 ∧ i2f 126 1 = 0x00800000 ∧ i2f 20 0 = 0 := by
  decide

/-! ### One step of each command -/

/-- A machine of two QUAD instances, the first one given, the second fresh. -/
def machine (e : Engine) (turns : List Turn) : State where
  cfg := quad
  mem := [(0x1000, 0x01), (0x1001, 0x80), (0x1002, 0xFF), (0x1003, 0xA5)]
  engines := [e, Engine.fresh]
  host := []
  turns := turns
  cur := 0
  hold := 0
  cut := false

/-- A fresh instance with words on its port. -/
def given (words : List Nat) (launch : Launch) : Engine :=
  { Engine.fresh with port := { words := words, launch := launch } }

/-- The state an outcome leads to. -/
def after : Host.Outcome State Fault Refusal → Option State
  | .next t => some t
  | _ => none

/-- The ring of V-R1's first state. -/
def usedRing : HistRing where
  hist := #v[0x5B, 0x80, 0xA5, 0xCA, 0x9F, 0xC4, 0xE9, 0x0E, 0x33, 0x58, 0x7D, 0xA2, 0xC7, 0xEC, 0x11, 0x36]
  wp := 4

/-- V-R1. -/
theorem test_reset_clears_the_ring :
    (after (exec .reset (machine { Engine.fresh with ring := usedRing } []))).map (·.engines) =
      some [Engine.fresh, Engine.fresh] := by decide

/-- R102: RESET as the first step after hardware reset leaves the instances as they are, the packet taken. -/
theorem test_reset_from_hardware_reset :
    (after (step (State.reset.withFetchWord 32 0x00000001))).map (·.cur) = some 0 := by decide

/-- Program P1's first step: memory, ring and in-flight registers (R110's example). -/
theorem test_translate_first_step :
    after (exec (.translate 4 0x1000 1 .msbf 0x2000 1) (machine (given [] (Launch.all 32)) [])) =
      some { machine (given [] (Launch.all 32)) [] with
        mem := [(0x1000, 0x01), (0x1001, 0x80), (0x1002, 0xFF), (0x1003, 0xA5), (0x2000, 0xE0), (0x2001, 0xAB),
          (0x2002, 0x2C), (0x2003, 0xC9)]
        engines :=
          [{ ring := { hist := #v[1, 0, 0, 0, 0, 0, 0, 0, 0, 0, 0, 0, 0, 0, 0, 0], wp := 1 }
             flight :=
               some { rem := 3, sp := 0x1001, dp := 0x2004, ss := 1, ds := 1, ord := .msbf, out := [] }
             port := { words := [], launch := Launch.all 32 } },
            Engine.fresh] } := by decide +kernel

/-- V-A4: the destination wraps at the top of the address space. -/
theorem test_translate_wraps_the_destination :
    (after (exec (.translate 1 0x1000 1 .msbf 0xFFFFFFFE 1) (machine (given [] (Launch.all 32)) []))).map
        (fun t => [0xFFFFFFFE, 0xFFFFFFFF, 0, 1].map t.mem.read) = some [0xE0, 0xAB, 0x2C, 0xC9] := by decide +kernel

/-! ### Hypotheses that can be met

For each statement with hypotheses, a state and operands that meet all of them, at the ends of their ranges where they have
some. -/

/-- A packet that reads two octets and writes two samples, and a launch memory that admits exactly those. -/
def packet2 : List Nat := [2, 2, 0x1000, 1, 0x2000, 1]
def launch2 : Launch := { readable := [⟨0x1000, 2⟩], writable := [⟨0x2000, 8⟩] }
def job2 : Job := { count := 2, src := 0x1000, sstride := 1, ord := .msbf, dst := 0x2000, dstride := 1 }

/-- The in-flight registers of that command after its first octet. -/
def flight1 : Flight := { rem := 1, sp := 0x1001, dp := 0x2004, ss := 1, ds := 1, ord := .msbf, out := [] }

/-- ... and with two bytes of its last sample on their way. -/
def torn1 : Flight := { flight1 with rem := 0, sp := 0x1002, dp := 0x2008, out := [(0x2004, 0xE0), (0x2007, 0xC9)] }

/-- An instance in the middle of that command. -/
def busy (f : Flight) : Engine := { ring := usedRing, flight := some f, port := { words := [], launch := launch2 } }

/-- Each way a first word can be invalid, at the least and the greatest word. -/
theorem witness_InvalidWordIsRefused :
    (∀ w ∈ [0x00000000, 0x00000003, 0x00000101, 0x00000202, 0x80000002, 0xFFFFFFFF],
      (machine (given [w, 5] launch2) [.engine 0 9]).turns = .engine 0 9 :: [] ∧
      (machine (given [w, 5] launch2) [.engine 0 9]).engines[0]? = some (given [w, 5] launch2) ∧
      (given [w, 5] launch2).flight = none ∧ (given [w, 5] launch2).port.words = w :: [5] ∧ w < 2 ^ 32 ∧
      ((w % 256 ≠ 1 ∧ w % 256 ≠ 2) ∨ w / 512 ≠ 0 ∨ (w % 256 = 1 ∧ w / 256 % 2 = 1))) := by decide

theorem witness_DecodeOfEncode :
    Instr.reset.wf 3 = true ∧ (Instr.translate 7 7 7 .lsbf 7 7).wf 3 = true ∧
      (Instr.translate 0 0 0 .msbf 0 0).wf 64 = true := by decide

theorem witness_EncodeOfDecode :
    decode 32 [1, 7] = .ok .reset [7] ∧ decode 3 [0x102, 7, 7, 7, 7, 7] = .ok (.translate 7 7 7 .lsbf 7 7) [] := by
  decide

/-- One packet, at a settled turn and at the default one, and a packet with a word too many. -/
theorem witness_StepExecutesThePacket :
    ((machine (given packet2 launch2) [.engine 0 15]).engines[0]? = some (given packet2 launch2) ∧
      (given packet2 launch2).flight = none ∧
      decode (machine (given packet2 launch2) []).cfg.addrW (given packet2 launch2).port.words =
        .ok job2.instr [] ∧
      (machine (given packet2 launch2) [.engine 0 15]).turns = .engine 0 15 :: []) ∧
    ((machine (given packet2 launch2) []).turns = [] ∧
      (machine (given packet2 launch2) []).defaultTurn = some (.engine 0 0)) ∧
    (machine (given [1, 1] launch2) [.engine 0 0]).turns = .engine 0 0 :: [] ∧
      (machine (given [1, 1] launch2) [.engine 0 0]).engines[0]? = some (given [1, 1] launch2) ∧
      (given [1, 1] launch2).flight = none ∧
      decode (machine (given [1, 1] launch2) []).cfg.addrW (given [1, 1] launch2).port.words = .ok .reset [1] ∧
      [1] ≠ ([] : List Nat) := by decide

theorem witness_IdleKeepsItsState :
    ((machine Engine.fresh [.engine 1 3]).turns = .engine 1 3 :: [] ∧
      (machine Engine.fresh [.engine 1 3]).engines[1]? = some Engine.fresh ∧ Engine.fresh.flight = none ∧
      Engine.fresh.port.words = []) ∧
    (machine Engine.fresh []).over = true ∧ (machine Engine.fresh []).host = [] ∧
      (machine Engine.fresh []).turns = [] := by decide

/-- A run that is over, with acts and turns left: a store, and the reset input. -/
theorem witness_OverStaysOver :
    ∀ a ∈ [HostAct.store 0x1000 0x00, .hardReset],
      let s : State := { machine Engine.fresh [.host, .engine 1 3] with host := [a] }
      s.over = true ∧ (after (step s)).isSome = true := by decide

/-- A reset that ends a command in flight, one that ends a packet on its port, a run it has happened in, and one of instances
that are all idle. -/
theorem witness_CutRunIsNeverOver :
    (∀ e ∈ [busy flight1, given packet2 launch2],
      let s : State := { machine e [.host] with host := [.hardReset] }
      s.turns = .host :: [] ∧ s.host = .hardReset :: [] ∧ s.engines[0]? = some e ∧
        (e.flight ≠ none ∨ e.port.words ≠ []) ∧ (after (step s)).isSome = true) ∧
    (∀ s ∈ [{ machine Engine.fresh [.host] with cut := true }], s.cut = true ∧ (after (step s)).isSome = true) ∧
    let s : State := { machine Engine.fresh [.host] with host := [.hardReset] }
    s.cut = false ∧ (∀ e ∈ s.engines, e.flight = none ∧ e.port.words = []) ∧ (after (step s)).isSome = true := by decide

/-- Hypotheses of ResetReturnsToFresh, ResetIsIdempotent, ResetIsAsFreshlyConstructed and TranslateOfNothing. -/
theorem witness_idle_instance :
    (machine { Engine.fresh with ring := usedRing } []).engines[(machine Engine.fresh []).cur]? =
      some { Engine.fresh with ring := usedRing } ∧
    ({ Engine.fresh with ring := usedRing } : Engine).flight = none := by decide

theorem witness_ResetStateValues : State.reset.engines[0]? = some Engine.fresh := by rfl

/-- With `COUNT = 1` and with the greatest count, and a sample that straddles the top of the address space. -/
theorem witness_TranslateDoesItsFirstOctet :
    ∀ count ∈ [1, 4294967295],
      (machine (given [] (Launch.all 32)) []).engines[0]? = some (given [] (Launch.all 32)) ∧
      (given [] (Launch.all 32)).flight = none ∧
      (Instr.translate count 0xFFFFFFFF 0x80000000 .lsbf 0xFFFFFFFE 0xFFFFFFFF).wf 32 = true ∧ count ≠ 0 ∧
      (machine (given [] (Launch.all 32)) []).hold = 0 ∧
      (given [] (Launch.all 32)).port.launch.canRead 0xFFFFFFFF = true ∧
      ∀ k, k < 4 → (given [] (Launch.all 32)).port.launch.canWrite ((0xFFFFFFFE + k) % 2 ^ 32) = true := by decide

theorem witness_InFlightDoesItsNextOctet :
    (machine (busy flight1) [.engine 0 0]).turns = .engine 0 0 :: [] ∧
    (machine (busy flight1) [.engine 0 0]).engines[0]? = some (busy flight1) ∧ (busy flight1).flight = some flight1 ∧
    flight1.out = [] ∧ flight1.rem ≠ 0 ∧ (busy flight1).port.launch.canRead flight1.sp = true ∧
    ∀ k, k < 4 → (busy flight1).port.launch.canWrite (byteAddr 32 flight1.dp k) = true := by decide

/-- An accepting step that holds nothing back, its sample's first and last bytes, and all four. -/
theorem witness_TornSampleWrite :
    ∀ hold ∈ [(0 : BitVec 4), 9, 15],
      let s : State := { machine (given [] launch2) [] with hold := hold }
      s.engines[s.cur]? = some (given [] launch2) ∧ (given [] launch2).flight = none ∧
        job2.instr.wf s.cfg.addrW = true ∧ job2.count ≠ 0 ∧ launch2.canRead job2.src = true ∧
        (∀ k, k < 4 → launch2.canWrite (byteAddr s.cfg.addrW job2.dst k) = true) ∧ s.mem.Wf ∧ 3 ≤ s.cfg.addrW ∧ 0 < 4 ∧
        3 < 4 ∧ (s.hold.getLsbD 3 = false ∨ s.hold.getLsbD 3 = true) := by decide

/-- An iteration in flight that holds nothing back, its first and last bytes, and all four. -/
theorem witness_TornIterationInFlight :
    ∀ hold ∈ [(0 : BitVec 4), 9, 15],
      let s := machine (busy flight1) [.engine 0 hold]
      s.turns = .engine 0 hold :: [] ∧ s.engines[0]? = some (busy flight1) ∧ (busy flight1).flight = some flight1 ∧
        flight1.out = [] ∧ flight1.rem ≠ 0 ∧ (busy flight1).port.launch.canRead flight1.sp = true ∧
        (∀ k, k < 4 → (busy flight1).port.launch.canWrite (byteAddr s.cfg.addrW flight1.dp k) = true) ∧ s.mem.Wf ∧
        3 ≤ s.cfg.addrW ∧ 0 < 4 ∧ 3 < 4 := by decide

/-- Two bytes on their way, none, the one, the other and both held back once more. -/
theorem witness_TornSampleLandsPiecemeal :
    ∀ hold ∈ [(0 : BitVec 4), 1, 2, 3],
      let s := machine (busy torn1) [.engine 0 hold]
      s.turns = .engine 0 hold :: [] ∧ s.engines[0]? = some (busy torn1) ∧ (busy torn1).flight = some torn1 ∧
        torn1.out ≠ [] ∧ s.mem.Wf ∧ (torn1.out.map (·.1)).Nodup ∧ torn1.out[0]? = some (0x2004, 0xE0) ∧
        torn1.out[1]? = some (0x2007, 0xC9) := by decide

theorem witness_SampleLandsBeforeTheNextRead :
    (machine (busy torn1) [.engine 0 0]).turns = .engine 0 0 :: [] ∧
    (machine (busy torn1) [.engine 0 0]).engines[0]? = some (busy torn1) ∧ (busy torn1).flight = some torn1 ∧
    torn1.out ≠ [] := by decide

/-- The octets just below and just above the readable ones. -/
theorem witness_ReadOutsideTheLaunchIsStuck :
    (∀ src ∈ [0x0FFF, 0x1002],
      (machine (given [] launch2) []).engines[0]? = some (given [] launch2) ∧ (given [] launch2).flight = none ∧
      (Instr.translate 1 src 1 .msbf 0x2000 1).wf 32 = true ∧ (1 : Nat) ≠ 0 ∧ launch2.canRead src = false) ∧
    let f : Flight := { flight1 with sp := 0x1002 }
    (machine (busy f) [.engine 0 6]).turns = .engine 0 6 :: [] ∧
      (machine (busy f) [.engine 0 6]).engines[0]? = some (busy f) ∧ (busy f).flight = some f ∧ f.out = [] ∧
      f.rem ≠ 0 ∧ (busy f).port.launch.canRead f.sp = false := by decide

/-- A sample whose first byte is the first address past the writable ones, and one whose last byte is. -/
theorem witness_WriteOutsideTheLaunchIsStuck :
    (∀ c ∈ [(0x2008, 0), (0x2005, 3)],
      (machine (given [] launch2) []).engines[0]? = some (given [] launch2) ∧ (given [] launch2).flight = none ∧
      (Instr.translate 1 0x1000 1 .msbf c.1 1).wf 32 = true ∧ (1 : Nat) ≠ 0 ∧ launch2.canRead 0x1000 = true ∧
      c.2 < 4 ∧ launch2.canWrite (byteAddr 32 c.1 c.2) = false) ∧
    let f : Flight := { flight1 with dp := 0x2005 }
    (machine (busy f) [.engine 0 6]).turns = .engine 0 6 :: [] ∧
      (machine (busy f) [.engine 0 6]).engines[0]? = some (busy f) ∧ (busy f).flight = some f ∧ f.out = [] ∧
      f.rem ≠ 0 ∧ (busy f).port.launch.canRead f.sp = true ∧ 3 < 4 ∧
      (busy f).port.launch.canWrite (byteAddr 32 f.dp 3) = false := by decide

/-- Each kind of command that answers a next state. -/
theorem witness_CommandFrame :
    ∀ i ∈ [Instr.reset, .translate 0 0xDEAD0000 7 .msbf 0xBEEF0001 0xFFFFFFFD, job2.instr],
      (after (exec i (machine (given [] launch2) []))).isSome = true := by decide +kernel

/-- A busy instance, and, for the host's issue, also an idle one with a packet waiting. -/
theorem witness_BusyInstanceTakesNoCommand :
    ((machine (busy flight1) []).engines[(machine (busy flight1) []).cur]? = some (busy flight1) ∧
      (busy flight1).flight = some flight1) ∧
    ∀ e ∈ [busy flight1, given packet2 launch2],
      let s : State := { machine e [.host] with host := [.issue 0 [1] launch2] }
      s.turns = .host :: [] ∧ s.host = .issue 0 [1] launch2 :: [] ∧ s.engines[0]? = some e ∧
        (e.flight ≠ none ∨ e.port.words ≠ []) := by decide

set_option synthInstance.maxSize 1000 in
/-- Hypotheses of TranslateRunsToCompletion, TranslateKeepsItsPromise and TranslateEnds' first clause. -/
theorem witness_whole_translate :
    let s := machine (given packet2 launch2) [.engine 0 0, .engine 0 0, .host]
    s.engines[0]? = some (given packet2 launch2) ∧ (given packet2 launch2).flight = none ∧ s.mem.Wf ∧
      job2.instr.wf s.cfg.addrW = true ∧ 1 ≤ job2.count ∧
      (given packet2 launch2).port.words = encode job2.instr ∧ job2.Admitted s.cfg.addrW launch2 ∧
      job2.Clean s.cfg.addrW ∧ s.turns = List.replicate job2.count (.engine 0 0) ++ [.host] := by decide

/-- TranslateEnds' other clauses: stuck at the first and at the last iteration, at the read and at the sample's last byte. -/
theorem witness_TranslateEnds :
    ∀ c ∈ [((0, [], launch2.writable) : Nat × List Region × List Region), (1, [⟨0x1000, 1⟩], launch2.writable),
        (0, launch2.readable, [⟨0x2000, 3⟩]), (1, launch2.readable, [⟨0x2000, 7⟩])],
      let l : Launch := { readable := c.2.1, writable := c.2.2 }
      let s := machine (given packet2 l) [.engine 0 0, .engine 0 0]
      s.engines[0]? = some (given packet2 l) ∧ (given packet2 l).flight = none ∧
        job2.instr.wf s.cfg.addrW = true ∧ 1 ≤ job2.count ∧ (given packet2 l).port.words = encode job2.instr ∧
        s.turns = List.replicate job2.count (.engine 0 0) ++ [] ∧ c.1 < job2.count ∧
        (∀ m, m < c.1 → job2.AdmittedAt 32 l m) ∧
        (l.canRead (srcAddr 32 job2.src job2.sstride c.1) = false ∨
          l.canRead (srcAddr 32 job2.src job2.sstride c.1) = true ∧ 3 < sampleBytes ∧
            l.canWrite (job2.outAddr 32 c.1 3) = false) := by decide

/-- Split before the first octet, in the middle and after the last. -/
theorem witness_ChunkingInvariance :
    ∀ a ∈ [0, 1, 2],
      (machine (given [] launch2) []).engines[0]? = some (given [] launch2) ∧ (given [] launch2).flight = none ∧
      (given [] launch2).port.words = [] ∧ job2.instr.wf (machine (given [] launch2) []).cfg.addrW = true ∧
      a ≤ job2.count := by decide

set_option synthInstance.maxSize 1000 in
/-- A packed and an interleaved buffer of the same octets. -/
theorem witness_StrideCorrectness :
    let k : Job := { job2 with src := 0x3001, sstride := 2, dst := 0x4008, dstride := 0xFFFFFFFE }
    let wide : Launch := { readable := [⟨0x3000, 4⟩], writable := [⟨0x4000, 16⟩] }
    let s := machine (given packet2 launch2) [.engine 0 0, .engine 0 0]
    let u : State :=
      { machine (given (encode k.instr) wide) [.engine 0 0, .engine 0 0] with
        mem := [(0x3000, 0x77), (0x3001, 0x01), (0x3003, 0x80)] }
    (u.cfg = s.cfg ∧ s.engines[0]? = some (given packet2 launch2) ∧
      u.engines[0]? = some (given (encode k.instr) wide) ∧ (given packet2 launch2).flight = none ∧
      (given (encode k.instr) wide).flight = none ∧
      (given (encode k.instr) wide).ring = (given packet2 launch2).ring ∧ s.mem.Wf ∧ u.mem.Wf) ∧
    (job2.instr.wf 32 = true ∧ k.instr.wf 32 = true ∧ 1 ≤ job2.count ∧ k.count = job2.count ∧ k.ord = job2.ord ∧
      packet2 = encode job2.instr ∧ job2.Admitted 32 launch2 ∧ k.Admitted 32 wide ∧ job2.Clean 32 ∧ k.Clean 32) ∧
    s.turns = List.replicate job2.count (.engine 0 0) ∧ u.turns = List.replicate job2.count (.engine 0 0) ∧
      job2.octets 32 s.mem = k.octets 32 u.mem := by decide +kernel

/-- Rows 0 and 15, and octets that differ only in bit 0 and only in bit 7. -/
theorem witness_TableProperties :
    quad.Wf ∧ ext18.Wf ∧ 0 < nLag ∧ 15 < nLag ∧
    ∀ x ∈ [((0x01, 0x00, 0) : Octet × Octet × Nat), (0xA5, 0x25, 7)],
      x.2.2 < 8 ∧ x.1.getLsbD x.2.2 = true ∧ x.2.1.getLsbD x.2.2 = false ∧
        ∀ i, i < 8 → i ≠ x.2.2 → x.1.getLsbD i = x.2.1.getLsbD i := by decide +kernel

/-- At the start and at the end of CALC's loop. -/
theorem witness_AccumulatorNeverOverflows : quad.Wf ∧ ext18.Wf ∧ 0 ≤ nLag ∧ 16 ≤ nLag := by decide +kernel

/-- More octets than slots, exactly as many, and fewer: the newest octet, the oldest kept one, the first untouched slot. -/
theorem witness_RingAfterOctets :
    (1 ≤ 1 ∧ 1 ≤ (List.replicate 17 (0x69 : Octet)).length ∧ 1 ≤ 16) ∧
    (1 ≤ 16 ∧ 16 ≤ (List.replicate 16 (0x69 : Octet)).length ∧ 16 ≤ 16) ∧
    ([] : List Octet).length < 1 ∧ ([0x69] : List Octet).length < 2 ∧ 2 ≤ 16 := by decide

theorem witness_HistoryHoldsTheLastSixteen : 0 < 16 ∧ 15 < 16 := by decide

/-- The first settled sample, and one after an octet that no longer counts. -/
theorem witness_SettlingLength :
    (15 ≤ 15 ∧ 15 < (List.replicate 16 (0x69 : Octet)).length) ∧
      15 ≤ 19 ∧ 19 < (List.replicate 20 (0x69 : Octet)).length := by decide

/-- V-R1's ring turned by three slots. -/
theorem witness_RotationInvariance :
    let r' : HistRing :=
      { hist := #v[0xEC, 0x11, 0x36, 0x5B, 0x80, 0xA5, 0xCA, 0x9F, 0xC4, 0xE9, 0x0E, 0x33, 0x58, 0x7D, 0xA2, 0xC7],
        wp := 7 }
    r'.wp = usedRing.wp + 3 ∧ ∀ i, slotAt r'.hist (i + 3) = slotAt usedRing.hist i := by decide

theorem witness_ConstantInput : ∀ i, slotAt HistRing.fresh.hist i = 0x00 := by decide

/-- The largest magnitudes, zero and one, with no fraction bit and with the most. -/
theorem witness_SampleIsExact :
    ∀ frac ∈ [0, 126], frac ≤ 126 ∧ ∀ a ∈ [(-16777216 : Int), 0, 1, 16777216], |a| ≤ (2 : Int) ^ 24 := by decide

/-- The values of the second clause, and two equal sums for the third. -/
theorem witness_SampleIsNormalOrZero :
    126 ≤ 126 ∧ (∀ a ∈ [(-16777216 : Int), -1, 1, 16777216], a ≠ 0 ∧ |a| ≤ (2 : Int) ^ 24) ∧ i2f 126 1 = i2f 126 1 := by
  decide

/-- A sample at the top of the smallest address space, and the bytes it does not reach. -/
theorem witness_SampleIsLittleEndian :
    (machine Engine.fresh []).mem.Wf ∧ 3 ≤ 3 ∧ 0 < 4 ∧ 3 < 4 ∧ ∀ k, k < 4 → 2 ≠ (6 + k) % 2 ^ 3 := by decide

theorem witness_StridesAreModular : 1 ≤ 1 ∧ 1 < 2 ^ 1 ∧ 1 ≤ 32 ∧ 0x80000000 < 2 ^ 32 ∧ 0 < 2 ^ 32 := by decide

/-- One packet of either format, an invalid word (one word by R87), and what is not one packet. -/
theorem witness_IssueReachesAnIdlePort :
    ∀ c ∈ [(packet2, true), ([1], true), ([0], true), ([], false), ([1, 1], false), ([2, 2, 0x1000, 1, 0x2000], false)],
      let s : State := { machine Engine.fresh [.host] with host := [.issue 1 c.1 launch2, .await 1] }
      s.turns = .host :: [] ∧ s.host = .issue 1 c.1 launch2 :: [.await 1] ∧ s.engines[1]? = some Engine.fresh ∧
        Engine.fresh.flight = none ∧ Engine.fresh.port.words = [] ∧ onePacket c.1 = c.2 := by decide

/-- An instance that is complete, one in flight, and one with a packet it has not accepted. -/
theorem witness_AwaitEndsAtCompletion :
    ∀ e ∈ [Engine.fresh, busy flight1, given packet2 launch2],
      let s : State := { machine e [.host] with host := [.await 0] }
      s.turns = .host :: [] ∧ s.host = .await 0 :: [] ∧ s.engines[0]? = some e ∧
        ((e.flight = none ∧ e.port.words = []) ∨ e.flight ≠ none ∨ e.port.words ≠ []) := by decide

theorem witness_HostStoresOneByte :
    ∀ a ∈ [0, 0x1000, 0xFFFFFFFF],
      let s : State := { machine Engine.fresh [.host] with host := [.store a 0x00] }
      s.turns = .host :: [] ∧ s.host = .store a 0x00 :: [] ∧ s.mem.Wf ∧ a < 2 ^ s.cfg.addrW := by decide

theorem witness_HardResetMakesAllFresh :
    let s : State := { machine (busy torn1) [.host] with host := [.hardReset] }
    s.turns = .host :: [] ∧ s.host = .hardReset :: [] := by decide

/-- Legal states whose next step accepts a packet, goes on with one, lands a torn sample, and is the host's: the hypotheses
of StepKeepsTheInvariant and ConfigurationNeverChanges. -/
theorem witness_legal_steps :
    ∀ s ∈ [machine (given packet2 launch2) [.engine 0 5], machine (busy flight1) [.engine 0 0],
        machine (busy torn1) [.engine 0 2], { machine (busy flight1) [.host] with host := [.hardReset] }],
      s.Inv ∧ (after (step s)).isSome = true := by decide +kernel

theorem witness_InstancesArePrivate :
    ((machine (busy flight1) [.engine 0 0]).turns = .engine 0 0 :: [] ∧
      (after (step (machine (busy flight1) [.engine 0 0]))).isSome = true ∧ 1 ≠ 0) ∧
    let s : State := { machine (busy flight1) [.host] with host := [.store 0x1000 0x02] }
    s.turns = .host :: [] ∧ s.host.head? ≠ some .hardReset ∧ (after (step s)).isSome = true ∧
      s.engines[0]? = some (busy flight1) := by decide +kernel

/-- The bytes just below and just above the writable ones. -/
theorem witness_WritesStayInTheLaunch :
    let s := machine (busy flight1) [.engine 0 0]
    s.Inv ∧ s.turns = .engine 0 0 :: [] ∧ s.engines[0]? = some (busy flight1) ∧ (after (step s)).isSome = true ∧
      (busy flight1).port.launch.canWrite 0x1FFF = false ∧ (busy flight1).port.launch.canWrite 0x2008 = false := by
  decide +kernel

/-- Two instances that read the same octets and write next to one another, each write torn. -/
theorem witness_DisjointInstancesCommute :
    let d := given [0x102, 1, 0x1000, 1, 0x2008, 1] { readable := [⟨0x1000, 2⟩], writable := [⟨0x2008, 4⟩] }
    let s : State := { machine (busy flight1) [] with engines := [busy flight1, d] }
    s.Inv ∧ 0 ≠ 1 ∧ s.engines[0]? = some (busy flight1) ∧ s.engines[1]? = some d ∧
      (busy flight1).port.launch.apart d.port.launch = true ∧
      (after (runSteps 2 { s with turns := [.engine 0 3, .engine 1 8] })).isSome = true := by decide +kernel

end Sys2Proof.Tests
end

section
/-! The scope of the machine (spec/00_scope.md): every step keeps a legal state legal, a busy instance takes no command, and
the host's packet reaches an idle port. -/

namespace Sys2Proof.Machine

/-! ### Legal in-flight registers and instances -/

/-- Keeping fewer bytes of a sample on their way is legal, while something is left to do. -/
theorem Flight.ok_out_sublist {aw : Nat} {l : Launch} {f : Flight} {out : List Host.Cell} (hf : f.ok aw l = true)
    (hsub : out.Sublist f.out) (hleft : f.rem ≠ 0 ∨ out ≠ []) : Flight.ok aw l { f with out := out } = true := by
  obtain ⟨hrem, hsp, hdp, hss, hds, hlen, hnodup, hcells, -⟩ := Flight.ok_iff.mp hf
  exact Flight.ok_iff.mpr ⟨hrem, hsp, hdp, hss, hds, hsub.length_le.trans hlen, hnodup.sublist (hsub.map _),
    fun c hc => hcells c (hsub.subset hc), hleft⟩

/-- The bytes of a sample are inside the address space (R54). -/
theorem sampleCells_below {aw dp : Nat} {w : BitVec 32} {c : Host.Cell} (hc : c ∈ sampleCells aw dp w) :
    c.1 < 2 ^ aw := by
  obtain ⟨k, -, rfl⟩ := mem_sampleCells.mp hc
  exact byteAddr_lt aw dp k

/-- The registers after an iteration, with its whole sample still on its way, are legal: the pointers wrap (R52, R53) and
the sample's four bytes have distinct addresses (R54). -/
theorem Flight.ok_advance_sampleCells {aw : Nat} {l : Launch} {f : Flight} {w : BitVec 32} (haw : 2 ≤ aw)
    (hrem : f.rem < 2 ^ aw) (hss : FitsSigned aw f.ss) (hds : FitsSigned aw f.ds)
    (hw : ∀ c ∈ sampleCells aw f.dp w, l.canWrite c.1 = true) :
    (f.advance aw (sampleCells aw f.dp w)).ok aw l = true := by
  have hlen := sampleCells_length aw f.dp w
  refine Flight.ok_iff.mpr ⟨(Nat.sub_le f.rem 1).trans_lt hrem, wrap_lt _ _, wrap_lt _ _, hss, hds, hlen.le,
    sampleCells_nodup haw f.dp w, fun c hc => ⟨sampleCells_below hc, hw c hc⟩, .inr fun h => ?_⟩
  rw [Flight.advance_out] at h
  simp [h] at hlen

/-- An idle instance with nothing or one packet on its port is legal. -/
theorem Engine.ok_of_idle {aw : Nat} {e : Engine} (hi : e.flight = none)
    (hp : e.port.words = [] ∨ onePacket e.port.words = true) : e.ok aw = true :=
  Engine.ok_iff.mpr ⟨hp.imp_right fun h => ⟨h, hi⟩, by simp [hi]⟩

/-- A legal instance's port is empty while it is busy (R177). -/
theorem Engine.port_empty_of_busy {aw : Nat} {e : Engine} {f : Flight} (he : e.ok aw = true) (hf : e.flight = some f) :
    e.port.words = [] :=
  (Engine.ok_iff.mp he).1.resolve_right fun h => by simp [hf] at h

/-! ### Updates that keep a state legal -/

theorem State.Inv.addrW_ge {s : State} (hs : s.Inv) : 3 ≤ s.cfg.addrW := by
  obtain ⟨⟨haw, -⟩, -⟩ := hs
  exact haw

/-- A looked-up instance of a legal state is legal. -/
theorem State.Inv.engine_ok {s : State} {n : Nat} {e : Engine} (hs : s.Inv) (he : s.engines[n]? = some e) :
    e.ok s.cfg.addrW = true := by
  obtain ⟨-, -, -, -, hok⟩ := hs
  exact hok e (List.mem_of_getElem? he)

/-- Storing bytes inside the address space and replacing an instance by a legal one. -/
theorem State.Inv.storeAll_setEngine {s : State} {cs : List Host.Cell} {n : Nat} {e : Engine} (hs : s.Inv)
    (hcs : ∀ c ∈ cs, c.1 < 2 ^ s.cfg.addrW) (he : e.ok s.cfg.addrW = true) :
    (State.setEngine { s with mem := s.mem.storeAll cs } n e).Inv := by
  obtain ⟨hcfg, hwf, hbelow, hlen, hok⟩ := hs
  refine ⟨hcfg, Memory.storeAll_wf cs hwf, Memory.storeAll_below hbelow hcs, ?_, fun d hd => ?_⟩
  · simpa using hlen
  · rcases List.mem_or_eq_of_mem_set hd with hd | rfl
    · exact hok d hd
    · exact he

/-- Replacing an instance by a legal one. -/
theorem State.Inv.setEngine {s : State} {n : Nat} {e : Engine} (hs : s.Inv) (he : e.ok s.cfg.addrW = true) :
    (s.setEngine n e).Inv :=
  hs.storeAll_setEngine (cs := []) (by simp) he

/-- Hardware reset (R180). -/
theorem State.Inv.hardReset {s : State} (hs : s.Inv) : s.hardReset.Inv := by
  obtain ⟨hcfg, hwf, hbelow, hlen, -⟩ := hs
  refine ⟨hcfg, hwf, hbelow, by simpa using hlen, fun e he => ?_⟩
  obtain ⟨-, -, rfl⟩ := List.mem_map.mp he
  exact Engine.ok_of_idle rfl (.inl rfl)

/-! ### Turns that keep a state legal -/

/-- A turn that lands bytes of a sample. -/
theorem drained_keeps_inv {s : State} {e : Engine} {f : Flight} (hs : s.Inv) (he : e.ok s.cfg.addrW = true)
    (hf : e.flight = some f) : (drained s e f).Inv := by
  have hfok : f.ok s.cfg.addrW e.port.launch = true := (Engine.ok_iff.mp he).2 f hf
  obtain ⟨-, -, -, -, -, -, -, hcells, -⟩ := Flight.ok_iff.mp hfok
  exact hs.storeAll_setEngine (fun c hc => (hcells c (landing_mem hc)).1)
    (Engine.ok_settle (Engine.port_empty_of_busy he hf) (Flight.ok_out_sublist (f := f) hfok (lagging_sublist _ _ _)))

/-- The loop's turn, first or later, of an instance with nothing on its port: what counts of the registers before it is
that the count and the strides fit. -/
theorem iterate_keeps_inv {s t : State} {e : Engine} {f : Flight} (hs : s.Inv) (hp : e.port.words = [])
    (hrem : f.rem < 2 ^ s.cfg.addrW) (hss : FitsSigned s.cfg.addrW f.ss) (hds : FitsSigned s.cfg.addrW f.ds)
    (h : iterate s e f = .next t) : t.Inv := by
  rcases iterate_next h with ⟨-, rfl⟩ | ⟨-, -, hw, rfl⟩
  · exact hs.setEngine (Engine.ok_of_idle rfl (.inl hp))
  · have hadvanced := Flight.ok_advance_sampleCells (Nat.le_of_succ_le hs.addrW_ge) hrem hss hds hw
    have hkept := Flight.ok_out_sublist hadvanced (lagging_sublist s.hold (storesOf s e f) 0)
    exact hs.storeAll_setEngine (fun c hc => sampleCells_below (landing_mem hc)) (Engine.ok_settle hp hkept)

/-- A command executed with its packet taken off the port. -/
theorem exec_keeps_inv {i : Instr} {s t : State} (hs : s.Inv)
    (hp : ∀ e, s.engines[s.cur]? = some e → e.port.words = []) (h : exec i s = .next t) : t.Inv := by
  obtain ⟨e, he, -, ⟨-, rfl⟩ | ⟨count, src, ss, ord, dst, ds, -, hit⟩⟩ := exec_next h
  · exact hs.setEngine (Engine.ok_of_idle rfl (.inl (hp e he)))
  · have haw : 1 ≤ s.cfg.addrW := le_trans (by decide) hs.addrW_ge
    exact iterate_keeps_inv hs (hp e he) (zext_lt _ _) (sext_fits haw _) (sext_fits haw _) hit

/-- An instance's turn. -/
theorem engineTurn_keeps_inv {s t : State} (hs : s.Inv) (h : engineTurn s = .next t) : t.Inv := by
  rcases engineTurn_next h with ⟨-, rfl⟩ | ⟨e, f, he, hf, -, rfl⟩ | ⟨e, f, he, hf, -, hit⟩ | ⟨e, i, he, hi, -, hex⟩
  · exact hs
  · exact drained_keeps_inv hs (hs.engine_ok he) hf
  · have hok := hs.engine_ok he
    obtain ⟨hrem, -, -, hss, hds, -⟩ := Flight.ok_iff.mp ((Engine.ok_iff.mp hok).2 f hf)
    exact iterate_keeps_inv hs (Engine.port_empty_of_busy hok hf) hrem hss hds hit
  · have htaken : (s.takePacket e).Inv := hs.setEngine (Engine.ok_of_idle hi (.inl rfl))
    refine exec_keeps_inv htaken (fun d hd => ?_) hex
    obtain rfl := Option.some.inj ((State.setEngine_lookup_same he).symm.trans hd)
    rfl

/-- The host's turn. -/
theorem hostTurn_keeps_inv {s t : State} (hs : s.Inv) (h : hostTurn s = .next t) : t.Inv := by
  rcases hostTurn_next h with rfl | ⟨n, words, launch, acts, e, -, he, hfree, hone, rfl⟩ | ⟨a, b, acts, -, ha, rfl⟩ |
    ⟨n, acts, e, -, -, -, rfl⟩ | ⟨acts, -, rfl⟩
  case inl => exact hs
  case inr.inl =>
    exact State.Inv.setEngine (s := { s with host := acts }) hs
      (Engine.ok_of_idle (Engine.free_iff.mp hfree).1 (.inr hone))
  case inr.inr.inl =>
    obtain ⟨hcfg, hwf, hbelow, hengines⟩ := hs
    exact ⟨hcfg, Memory.write_wf a b hwf, Memory.storeAll_below (cs := [(a, b)]) hbelow (by simpa using ha), hengines⟩
  case inr.inr.inr.inl => exact hs
  case inr.inr.inr.inr => exact State.Inv.hardReset (s := { s with host := acts }) hs

/-- Settles O50: the invariant reads neither the turns nor the host's acts, so it is the mover's turn that keeps it. -/
theorem stepKeepsTheInvariant : Obligations.StepKeepsTheInvariant := by
  intro s t hs h
  rcases step_next h with rfl | ⟨ts, hh⟩ | ⟨n, hold, ts, he⟩
  · exact hs
  · exact hostTurn_keeps_inv (s := { s with turns := ts }) hs hh
  · exact engineTurn_keeps_inv (s := { s with turns := ts, cur := n, hold := hold }) hs he

/-! ### The host's issue -/

/-- A step whose first settled turn is the host's. -/
theorem step_host_turn {s : State} {ts : List Turn} (h : s.turns = .host :: ts) :
    step s = hostTurn { s with turns := ts } := by
  simp [step, h, takeTurn]

theorem Engine.free_eq_false_iff {e : Engine} : e.free = false ↔ e.flight ≠ none ∨ e.port.words ≠ [] := by
  rw [← Bool.not_eq_true, Engine.free_iff, not_and_or]

section Issue
variable {s : State} {n : Nat} {e : Engine} {words : List Nat} {launch : Launch} {acts : List HostAct}

/-- An issue waits while the instance is busy or its port holds a packet. -/
theorem hostTurn_issue_waits (hh : s.host = .issue n words launch :: acts) (he : s.engines[n]? = some e)
    (hf : e.free = false) : hostTurn s = .next s := by
  simp [hostTurn, hh, he, hf]

/-- An issue of one packet to a free instance delivers it. -/
theorem hostTurn_issue_delivers (hh : s.host = .issue n words launch :: acts) (he : s.engines[n]? = some e)
    (hf : e.free = true) (hw : onePacket words = true) :
    hostTurn s = .next (State.deliver { s with host := acts } n e words launch) := by
  simp [hostTurn, hh, he, hf, hw]

/-- An issue of anything else to a free instance is refused. -/
theorem hostTurn_issue_refuses (hh : s.host = .issue n words launch :: acts) (he : s.engines[n]? = some e)
    (hf : e.free = true) (hw : onePacket words = false) : hostTurn s = .refused (.notOnePacket n) := by
  simp [hostTurn, hh, he, hf, hw]

end Issue

/-- Either command executed on a busy instance is refused. -/
theorem exec_of_busy {s : State} {e : Engine} {f : Flight} (i : Instr) (he : s.engines[s.cur]? = some e)
    (hf : e.flight = some f) : exec i s = .refused (.busy s.cur) := by
  cases i with
  | reset => exact onIdle_of_busy _ he hf
  | translate => exact onIdle_of_busy _ he hf

/-- Settles O25. -/
theorem busyInstanceTakesNoCommand : Obligations.BusyInstanceTakesNoCommand := by
  refine ⟨fun s e f i he hf => exec_of_busy i he hf, fun s n e ts words launch acts hts hh he hbusy => ?_⟩
  rw [step_host_turn hts]
  exact hostTurn_issue_waits hh he (Engine.free_eq_false_iff.mpr hbusy)

/-- Settles O45. -/
theorem issueReachesAnIdlePort : Obligations.IssueReachesAnIdlePort := by
  intro s n e ts words launch acts hts hh he hi hp
  have hfree : e.free = true := Engine.free_iff.mpr ⟨hi, hp⟩
  rw [step_host_turn hts]
  exact ⟨hostTurn_issue_delivers hh he hfree, hostTurn_issue_refuses hh he hfree⟩

end Sys2Proof.Machine
end

section
/-! The architectural state (spec/10_state.md): the coefficient table's properties, what the history holds, what no step
changes, which instance a turn reaches, and the state after hardware reset. -/

namespace Sys2Proof.Machine

/-! ### The coefficient table (R27, R29) -/

/-- The model's sum is the library's, which the laws of finite sums are about. -/
theorem sumTo_eq_sum_range (n : Nat) (f : Nat → Int) : sumTo n f = ∑ k ∈ Finset.range n, f k := by
  induction n with
  | zero => rfl
  | succ n ih => rw [sumTo, ih, Finset.sum_range_succ]

theorem sgn_not (b : Bool) : sgn (!b) = -sgn b := by cases b <;> rfl

theorem abs_sgn_mul (b : Bool) (x : Int) : |sgn b * x| = |x| := by cases b <;> simp [sgn]

/-- A modulation bit keeps a term's parity. -/
theorem sgn_mul_modEq_two (b : Bool) (x : Int) : sgn b * x ≡ x [ZMOD 2] := by
  cases b
  · exact Int.modEq_iff_dvd.mpr ⟨x, by simp only [sgn, Bool.false_eq_true, if_false]; ring⟩
  · simp [sgn]

section Table
variable (c : Config) (k : Nat) (v : Octet)

/-- R29 (a). -/
theorem ctab_complement : ctab c k (v ^^^ 0xFF) = -ctab c k v := by
  have hflip : ∀ j < 8, (v ^^^ 0xFF).getLsbD j = !v.getLsbD j := by
    have hones : ∀ j < 8, (0xFF : Octet).getLsbD j = true := by decide
    intro j hj
    rw [BitVec.getLsbD_xor, hones j hj, Bool.xor_true]
  unfold ctab
  rw [← sumTo_neg]
  exact sumTo_congr fun j hj => by rw [hflip j hj, sgn_not, neg_mul]

/-- R29 (b), the bound by the row's own taps. -/
theorem abs_ctab_le_row : |ctab c k v| ≤ sumTo 8 fun j => |tapAt c (8 * k + j)| := by
  simp only [ctab, sumTo_eq_sum_range]
  exact (Finset.abs_sum_le_sum_abs _ _).trans_eq (Finset.sum_congr rfl fun j _ => abs_sgn_mul _ _)

variable {c} in
/-- A tap of a legal configuration is within its width (R6). -/
theorem abs_tapAt_le (hc : c.Wf) (n : Nat) : |tapAt c n| ≤ 2 ^ (c.tw - 1) := by
  obtain ⟨-, -, -, -, -, -, htaps⟩ := hc
  unfold tapAt
  rw [List.getD_eq_getElem?_getD]
  cases hn : c.taps[n]? with
  | none => simp
  | some t =>
    obtain ⟨hlow, hhigh⟩ := htaps t (List.mem_of_getElem? hn)
    exact abs_le.mpr ⟨hlow, hhigh.le⟩

variable {c} in
/-- R29 (b), the bound by the width: eight taps of magnitude at most `2^(TW-1)`. -/
theorem row_abs_le (hc : c.Wf) : sumTo 8 (fun j => |tapAt c (8 * k + j)|) ≤ 2 ^ (c.tw + 2) := by
  have hsum : sumTo 8 (fun j => |tapAt c (8 * k + j)|) ≤ 8 * 2 ^ (c.tw - 1) := by
    refine (le_abs_self _).trans (sumTo_abs_le fun j _ => ?_)
    rw [abs_abs]
    exact abs_tapAt_le hc _
  obtain ⟨-, htw, -⟩ := hc
  obtain ⟨w, hw⟩ : ∃ w, c.tw = w + 1 := ⟨c.tw - 1, by omega⟩
  rw [hw] at hsum ⊢
  calc _ ≤ 8 * 2 ^ (w + 1 - 1) := hsum
    _ = (2 : Int) ^ (w + 1 + 2) := by rw [Nat.add_sub_cancel]; ring

variable {c k v} in
/-- R29 (b), as R6 uses it: a table entry fits `EW = TW + 4` signed bits. -/
theorem ctab_fits_of_abs_le (h : |ctab c k v| ≤ 2 ^ (c.tw + 2)) : FitsSigned c.ew (ctab c k v) := by
  have hlt : (2 : Int) ^ (c.tw + 2) < 2 ^ (c.ew - 1) := pow_lt_pow_right₀ (by norm_num) (by unfold Config.ew; omega)
  obtain ⟨hlow, hhigh⟩ := abs_le.mp h
  exact ⟨by omega, hhigh.trans_lt hlt⟩

/-- R29 (c), the greatest column. -/
theorem ctab_ones : ctab c k 0xFF = sumTo 8 fun j => tapAt c (8 * k + j) := by
  have hones : ∀ j < 8, sgn ((0xFF : Octet).getLsbD j) = 1 := by decide
  exact sumTo_congr fun j hj => by rw [hones j hj, one_mul]

/-- R29 (c), the least column: the complement of the greatest. -/
theorem ctab_zeros : ctab c k 0x00 = -sumTo 8 fun j => tapAt c (8 * k + j) := by
  rw [← ctab_ones, ← ctab_complement]
  rfl

variable {v} in
/-- R29 (d): all terms but the one of the differing bit cancel. -/
theorem ctab_sub_of_one_bit {v' : Octet} {j : Nat} (hj : j < 8) (hv : v.getLsbD j = true) (hv' : v'.getLsbD j = false)
    (hsame : ∀ i, i < 8 → i ≠ j → v.getLsbD i = v'.getLsbD i) :
    ctab c k v - ctab c k v' = 2 * tapAt c (8 * k + j) := by
  simp only [ctab, sumTo_eq_sum_range, ← Finset.sum_sub_distrib]
  rw [Finset.sum_eq_single_of_mem j (Finset.mem_range.mpr hj)]
  · rw [hv, hv']
    simp only [sgn, Bool.false_eq_true, if_true, if_false]
    ring
  · intro i hi hne
    rw [hsame i (Finset.mem_range.mp hi) hne, sub_self]

/-- R29 (e). -/
theorem ctab_parity : ctab c k v % 2 = sumTo 8 (fun j => tapAt c (8 * k + j)) % 2 := by
  simp only [ctab, sumTo_eq_sum_range]
  rw [Finset.sum_int_mod, Finset.sum_int_mod (f := fun j => tapAt c (8 * k + j))]
  exact congrArg (· % 2) (Finset.sum_congr rfl fun j _ => sgn_mul_modEq_two _ _)

end Table

/-- Settles O32: each clause is a fact about the eight signed taps of the row. -/
theorem tableProperties : Obligations.TableProperties := by
  intro c k v
  refine ⟨ctab_complement c k v, fun hc _ => ?_, ctab_ones c k, ctab_zeros c k,
    fun v' j hj hv hv' hsame => ctab_sub_of_one_bit c k hj hv hv' hsame, ctab_parity c k v⟩
  have hrow := abs_ctab_le_row c k v
  have hwidth := row_abs_le k hc
  exact ⟨hrow, hwidth, ctab_fits_of_abs_le (hrow.trans hwidth)⟩

/-! ### The history (R20 to R22) -/

/-- The write position advances by one for each octet (R21). -/
theorem HistRing.feed_wp (r : HistRing) (os : List Octet) : (r.feed os).wp = r.wp + BitVec.ofNat 4 os.length := by
  induction os generalizing r with
  | nil => exact (BitVec.add_zero r.wp).symm
  | cons o os ih =>
    rw [HistRing.feed, ih, HistRing.push_wp, List.length_cons, Nat.add_comm, BitVec.ofNat_add]
    exact BitVec.add_assoc _ _ _

/-- Each lag holds the octet that many steps back or, where there was none, what the ring before held that many steps
earlier. -/
theorem atLag_feed (r : HistRing) (os : List Octet) {k : Nat} (hk : k < histCap) :
    atLag (r.feed os).hist ((r.feed os).wp - 1) k =
      os.reverse.getD k (atLag r.hist (r.wp - 1) (k - os.length)) := by
  induction os using List.reverseRecOn generalizing k with
  | nil => rfl
  | append_singleton os o ih =>
    have hpush : r.feed (os ++ [o]) = (r.feed os).push o := HistRing.feed_append r os [o]
    rw [hpush, HistRing.push_wp, BitVec.add_sub_cancel, List.reverse_concat]
    cases k with
    | zero => rw [atLag_push_zero, List.getD_cons_zero]
    | succ k =>
      rw [atLag_push_succ _ _ hk, ih (Nat.lt_of_succ_lt hk), List.getD_cons_succ, List.length_append,
        List.length_singleton, Nat.add_sub_add_right]

/-- Settles O36: the ring after a reset holds `0x00` at every lag. -/
theorem historyHoldsTheLastSixteen : Obligations.HistoryHoldsTheLastSixteen := by
  intro os k hk
  constructor
  · exact (atLag_feed HistRing.fresh os hk).trans (congrArg _ (slotAt_fresh _))
  · rw [HistRing.feed_wp]
    exact BitVec.zero_add _

/-! ### What a turn can change -/

/-- `t` is `s` with another memory and another instance `s.cur` at most. -/
def State.OwnUpdate (s t : State) : Prop := ∃ m e, t = State.setEngine { s with mem := m } s.cur e

/-- No change is a change of the instance into itself, and a row has no instance past its end to change. -/
theorem State.OwnUpdate.refl (s : State) : s.OwnUpdate s := by
  cases he : s.engines[s.cur]? with
  | none =>
    have hset := List.set_eq_of_length_le (a := Engine.fresh) (List.getElem?_eq_none_iff.mp he)
    exact ⟨s.mem, Engine.fresh, by rw [State.setEngine, hset]⟩
  | some e => exact ⟨s.mem, e, (State.setEngine_self he).symm⟩

/-- Taking the packet off the port first makes no difference. -/
theorem State.OwnUpdate.of_takePacket {s t : State} {e : Engine} (h : (s.takePacket e).OwnUpdate t) :
    s.OwnUpdate t := by
  obtain ⟨m, d, rfl⟩ := h
  exact ⟨m, d, by simp [State.setEngine, State.takePacket]⟩

theorem iterate_ownUpdate {s t : State} {e : Engine} {f : Flight} (h : iterate s e f = .next t) : s.OwnUpdate t := by
  rcases iterate_next h with ⟨-, rfl⟩ | ⟨-, -, -, rfl⟩
  · exact ⟨_, _, rfl⟩
  · exact ⟨_, _, rfl⟩

theorem exec_ownUpdate {i : Instr} {s t : State} (h : exec i s = .next t) : s.OwnUpdate t := by
  obtain ⟨e, -, -, ⟨-, rfl⟩ | ⟨count, src, ss, ord, dst, ds, -, hit⟩⟩ := exec_next h
  · exact ⟨_, _, rfl⟩
  · exact iterate_ownUpdate hit

/-- An instance's turn changes memory and that instance alone (R24, R120). -/
theorem engineTurn_ownUpdate {s t : State} (h : engineTurn s = .next t) : s.OwnUpdate t := by
  rcases engineTurn_next h with ⟨-, rfl⟩ | ⟨e, f, -, -, -, rfl⟩ | ⟨e, f, -, -, -, hit⟩ | ⟨e, i, -, -, -, hex⟩
  · exact .refl _
  · exact ⟨_, _, rfl⟩
  · exact iterate_ownUpdate hit
  · exact .of_takePacket (exec_ownUpdate hex)

@[simp] theorem State.deliver_engines (s : State) (n : Nat) (e : Engine) (words : List Nat) (launch : Launch) :
    (s.deliver n e words launch).engines =
      s.engines.set n { e with port := { words := words, launch := launch } } := rfl

/-- The host's turn keeps the configuration and the number of instances. -/
theorem hostTurn_keeps_shape {s t : State} (h : hostTurn s = .next t) :
    t.cfg = s.cfg ∧ t.engines.length = s.engines.length := by
  rcases hostTurn_next h with rfl | ⟨n, words, launch, acts, e, -, -, -, -, rfl⟩ | ⟨a, b, acts, -, -, rfl⟩ |
    ⟨n, acts, e, -, -, -, rfl⟩ | ⟨acts, -, rfl⟩
  all_goals simp

/-- An instance's turn keeps the configuration and the number of instances. -/
theorem engineTurn_keeps_shape {s t : State} (h : engineTurn s = .next t) :
    t.cfg = s.cfg ∧ t.engines.length = s.engines.length := by
  obtain ⟨m, e, rfl⟩ := engineTurn_ownUpdate h
  simp

/-- A step keeps the configuration and the number of instances, whoever moves. -/
theorem step_keeps_shape {s t : State} (h : step s = .next t) :
    t.cfg = s.cfg ∧ t.engines.length = s.engines.length := by
  rcases step_next h with rfl | ⟨ts, hh⟩ | ⟨n, hold, ts, he⟩
  · exact ⟨rfl, rfl⟩
  · exact hostTurn_keeps_shape (s := { s with turns := ts }) hh
  · exact engineTurn_keeps_shape (s := { s with turns := ts, cur := n, hold := hold }) he

/-- Settles O52: the table is a function of the configuration. -/
theorem configurationNeverChanges : Obligations.ConfigurationNeverChanges := by
  intro s t h
  obtain ⟨hcfg, hlen⟩ := step_keeps_shape h
  exact ⟨hcfg, hlen, fun k v => by rw [hcfg]⟩

/-- The host's turn reaches no more of an instance than its port, unless it pulls the reset input (R175). -/
theorem hostTurn_keeps_ring_flight {s t : State} (hreset : s.host.head? ≠ some .hardReset) (h : hostTurn s = .next t)
    {m : Nat} {e : Engine} (he : s.engines[m]? = some e) :
    ∃ e', t.engines[m]? = some e' ∧ e'.ring = e.ring ∧ e'.flight = e.flight := by
  rcases hostTurn_next h with rfl | ⟨n, words, launch, acts, d, -, hd, -, -, rfl⟩ | ⟨a, b, acts, -, -, rfl⟩ |
    ⟨n, acts, d, -, -, -, rfl⟩ | ⟨acts, hacts, rfl⟩
  case inl => exact ⟨e, he, rfl, rfl⟩
  case inr.inl =>
    by_cases hmn : m = n
    · subst hmn
      obtain rfl : e = d := Option.some.inj (he.symm.trans hd)
      exact ⟨_, State.setEngine_lookup_same (s := { s with host := acts }) he, rfl, rfl⟩
    · exact ⟨e, (State.setEngine_lookup_other hmn).trans he, rfl, rfl⟩
  case inr.inr.inl => exact ⟨e, he, rfl, rfl⟩
  case inr.inr.inr.inl => exact ⟨e, he, rfl, rfl⟩
  case inr.inr.inr.inr => exact absurd (by rw [hacts]; rfl) hreset

/-- Settles O53: an instance's turn is an update of its own place, and the host's reaches only a port. -/
theorem instancesArePrivate : Obligations.InstancesArePrivate := by
  constructor
  · intro s t n hold ts hts h
    rw [step_engine_turn hts] at h
    obtain ⟨m, e, rfl⟩ := engineTurn_ownUpdate h
    exact ⟨rfl, fun k hk => State.setEngine_lookup_other hk⟩
  · intro s t ts hts hreset h m e he
    rw [step_host_turn hts] at h
    exact hostTurn_keeps_ring_flight (s := { s with turns := ts }) hreset h he

/-! ### After hardware reset (R36, R171) -/

theorem reset_engines_length : State.reset.engines.length = Config.chip.nInst := List.length_replicate

theorem eq_fresh_of_mem_reset_engines {e : Engine} (he : e ∈ State.reset.engines) : e = Engine.fresh :=
  List.eq_of_mem_replicate he

/-- Settles O14: every instance of the reset state is a fresh one. -/
theorem resetStateValues : Obligations.ResetStateValues := by
  refine ⟨?_, reset_engines_length, fun n e he => ?_⟩
  · rw [reset_engines_length]
    exact Nat.succ_pos _
  · obtain rfl := eq_fresh_of_mem_reset_engines (List.mem_of_getElem? he)
    exact ⟨slotAt_fresh, rfl, rfl, rfl⟩

/-- The parameters of the reset state meet R6, whatever its free taps are: each is a pattern of `TW` bits. -/
theorem chip_wf : Config.chip.Wf := by
  refine ⟨by decide, by decide, by decide, by decide, Nat.succ_pos _, by simp [Config.chip], fun t ht => ?_⟩
  obtain ⟨n, -, rfl⟩ := List.mem_map.mp ht
  exact ⟨BitVec.le_toInt _, BitVec.toInt_lt⟩

/-- Settles O51: nothing is listed in memory, and a fresh instance is idle with an empty port. -/
theorem resetIsLegal : Obligations.ResetIsLegal := by
  refine ⟨chip_wf, reset_mem_wf, by simp [State.reset], reset_engines_length, fun e he => ?_⟩
  rw [eq_fresh_of_mem_reset_engines he]
  exact Engine.ok_of_idle rfl (.inl rfl)

end Sys2Proof.Machine
end

section
/-! Memory and the launch memory (spec/20_memory.md): a sample's bytes and torn writes, accesses that leave an instance stuck,
what the accepting step leaves unchanged, and turns that do not meet in memory. -/

namespace Sys2Proof.Machine

/-! ### Marked bytes of a row (R58) -/

section Marked
variable {hold : BitVec 4} {b : Bool} {cs : List Host.Cell} {c : Host.Cell}

/-- The marked bytes, by their places in the row. -/
theorem mem_marked : c ∈ marked hold b cs ↔ ∃ k, cs[k]? = some c ∧ hold.getLsbD k = b := by
  simp only [marked, List.mem_map, List.mem_filter, beq_iff_eq]
  constructor
  · rintro ⟨⟨d, k⟩, ⟨hk, hb⟩, rfl⟩
    exact ⟨k, List.mem_zipIdx_iff_getElem?.mp hk, hb⟩
  · rintro ⟨k, hk, hb⟩
    exact ⟨(c, k), ⟨List.mem_zipIdx_iff_getElem?.mpr hk, hb⟩, rfl⟩

theorem marked_sublist (hold : BitVec 4) (b : Bool) (cs : List Host.Cell) : (marked hold b cs).Sublist cs := by
  cases b
  · exact landing_eq_marked hold cs ▸ landing_sublist hold cs 0
  · exact lagging_eq_marked hold cs ▸ lagging_sublist hold cs 0

@[simp] theorem marked_false_of_no_hold (cs : List Host.Cell) : marked 0#4 false cs = cs :=
  (landing_eq_marked 0 cs).symm.trans (landing_zero cs 0)

@[simp] theorem marked_true_of_no_hold (cs : List Host.Cell) : marked 0#4 true cs = [] :=
  (lagging_eq_marked 0 cs).symm.trans (lagging_zero cs 0)

/-- In a row of distinct addresses, a byte that is not marked has none of the marked ones' addresses. -/
theorem addr_ne_of_marked {k : Nat} (hd : (cs.map (·.1)).Nodup) (hc : cs[k]? = some c) (hb : hold.getLsbD k ≠ b) :
    ∀ d ∈ marked hold b cs, d.1 ≠ c.1 := by
  intro d hmem heq
  obtain ⟨q, hq, hqb⟩ := mem_marked.mp hmem
  have hlen : q < (cs.map (·.1)).length := by simpa using (List.getElem?_eq_some_iff.mp hq).1
  have hqk : q = k := (List.getElem?_inj hlen hd).mp (by simp [hq, hc, heq])
  exact hb (hqk ▸ hqb)

/-- A torn write to canonical memory: each byte that is not held is what is then read, and each held one's address reads as
before. -/
theorem Memory.read_storeAll_marked {m : Memory} {k : Nat} (hm : m.Wf) (hd : (cs.map (·.1)).Nodup)
    (hc : cs[k]? = some c) :
    (m.storeAll (marked hold false cs)).read c.1 = if hold.getLsbD k then m.read c.1 else c.2 := by
  cases hk : hold.getLsbD k with
  | true => exact Memory.read_storeAll_other _ _ _ (addr_ne_of_marked hd hc (by simp [hk]))
  | false =>
    exact Memory.read_storeAll_same hm (hd.sublist ((marked_sublist _ _ _).map _)) (mem_marked.mpr ⟨k, hc, hk⟩)

/-- A torn sample write to canonical memory, byte by byte (R55). -/
theorem Memory.read_storeAll_marked_sampleCells {m : Memory} {aw k : Nat} (hm : m.Wf) (haw : 3 ≤ aw) (dp : Nat)
    (w : BitVec 32) (hk : k < sampleBytes) :
    (m.storeAll (marked hold false (sampleCells aw dp w))).read (byteAddr aw dp k) =
      if hold.getLsbD k then m.read (byteAddr aw dp k) else sampleByte w k :=
  Memory.read_storeAll_marked hm (sampleCells_nodup (Nat.le_of_succ_le haw) dp w) (sampleCells_getElem w hk)

/-- Of a sample's four bytes none is kept exactly when none is held. -/
theorem marked_true_sampleCells_eq_nil_iff {aw dp : Nat} {w : BitVec 32} :
    marked hold true (sampleCells aw dp w) = [] ↔ hold = 0 := by
  constructor
  · intro h
    refine BitVec.eq_of_getLsbD_eq fun k hk => ?_
    rw [BitVec.ofNat_eq_ofNat, BitVec.getLsbD_zero, ← Bool.not_eq_true]
    intro hb
    have hmem := mem_marked.mpr ⟨k, sampleCells_getElem (aw := aw) (dp := dp) w hk, hb⟩
    rw [h] at hmem
    exact List.not_mem_nil hmem
  · rintro rfl
    exact marked_true_of_no_hold _

end Marked

/-! ### The bytes of a sample (R54, R55) -/

/-- Byte `k` of a word as a number. -/
theorem sampleByte_toNat (w : BitVec 32) (k : Nat) : (sampleByte w k).toNat = w.toNat / 256 ^ k % 256 := by
  have h : (2 : Nat) ^ (8 * k) = 256 ^ k := pow_mul 2 8 k
  simp [sampleByte, BitVec.extractLsb'_toNat, Nat.shiftRight_eq_div_pow, h]

/-- A sample write, whole or torn, leaves every address but the sample's four as before. -/
theorem Memory.read_storeAll_of_ne_byteAddr {m : Memory} {cs : List Host.Cell} {aw dp a : Nat} {w : BitVec 32}
    (hcs : ∀ c ∈ cs, c ∈ sampleCells aw dp w) (ha : ∀ k, k < sampleBytes → a ≠ byteAddr aw dp k) :
    (m.storeAll cs).read a = m.read a := by
  refine Memory.read_storeAll_other m cs a fun c hc => ?_
  obtain ⟨k, hk, rfl⟩ := mem_sampleCells.mp (hcs c hc)
  exact (ha k hk).symm

/-- Settles O43. -/
theorem sampleIsLittleEndian : Obligations.SampleIsLittleEndian := by
  intro m aw dp w hm haw
  constructor
  · intro k hk
    have hread := Memory.read_storeAll_marked_sampleCells (hold := 0) hm haw dp w hk
    rw [← byteAddr_eq, ← sampleByte_toNat]
    simpa using congrArg BitVec.toNat hread
  · intro a ha
    exact Memory.read_storeAll_of_ne_byteAddr (fun c hc => hc) fun k hk => byteAddr_eq aw dp k ▸ ha k hk

/-! ### Torn steps (R58, R63, R110) -/

section Torn
variable {s : State} {e : Engine} {f : Flight}

/-- After an iteration the command is complete if it was the last one and no byte is kept. -/
theorem Flight.settle_advance (hr : f.rem ≠ 0) (aw : Nat) (out : List Host.Cell) :
    (f.advance aw out).settle = if f.rem = 1 ∧ out = [] then none else some (f.advance aw out) := by
  have hlast : f.rem - 1 = 0 ↔ f.rem = 1 := by omega
  simp only [Flight.settle, Flight.advance_rem, Flight.advance_out, hlast]

/-- The loop's turn with nothing left to do (R113). -/
theorem iterate_of_done (hr : f.rem = 0) : iterate s e f = .next (s.setEngine s.cur { e with flight := none }) :=
  if_pos hr

/-- An admitted iteration, with any of its sample's bytes held. -/
theorem iterate_torn (hr : f.rem ≠ 0) (hc : e.port.launch.canRead f.sp = true)
    (hw : ∀ k, k < sampleBytes → e.port.launch.canWrite (byteAddr s.cfg.addrW f.dp k) = true) :
    iterate s e f =
      .next { s with
        mem := s.mem.storeAll (marked s.hold false (storesOf s e f))
        engines := s.engines.set s.cur
          { ring := e.ring.push (s.mem.read f.sp)
            flight :=
              if f.rem = 1 ∧ s.hold = 0 then none
              else some (f.advance s.cfg.addrW (marked s.hold true (storesOf s e f)))
            port := e.port } } := by
  have hnone : marked s.hold true (storesOf s e f) = [] ↔ s.hold = 0 := marked_true_sampleCells_eq_nil_iff
  rw [iterate_of_admitted hr hc (stores_canWrite_iff.mpr hw)]
  simp only [iterated, State.setEngine, landing_eq_marked, lagging_eq_marked, Flight.settle_advance hr, hnone]

/-- A turn that lands bytes of a sample, any of them held once more. -/
theorem drained_torn :
    drained s e f =
      { s with
        mem := s.mem.storeAll (marked s.hold false f.out)
        engines := s.engines.set s.cur
          { ring := e.ring
            flight :=
              if f.rem = 0 ∧ marked s.hold true f.out = [] then none
              else some { f with out := marked s.hold true f.out }
            port := e.port } } := by
  simp only [drained, State.setEngine, landing_eq_marked, lagging_eq_marked, Flight.settle]

end Torn

/-- A well-formed TRANSLATE on an idle instance is the loop's turn on registers that hold its operands. -/
theorem exec_translate_of_wf {s : State} {e : Engine} {count src ss dst ds : Nat} {ord : BitOrder}
    (he : s.engines[s.cur]? = some e) (hi : e.flight = none)
    (hwf : (Instr.translate count src ss ord dst ds).wf s.cfg.addrW = true) :
    exec (.translate count src ss ord dst ds) s =
      iterate s e
        { rem := count, sp := src, dp := dst, ss := sext s.cfg.addrW ss, ds := sext s.cfg.addrW ds, ord := ord,
          out := [] } := by
  obtain ⟨hcount, hsrc, -, hdst, -⟩ := translate_wf hwf
  refine (onIdle_of_idle _ he hi).trans ?_
  rw [accepted, zext_of_lt hcount, zext_of_lt hsrc, zext_of_lt hdst]

/-- Settles O18. -/
theorem tornSampleWrite : Obligations.TornSampleWrite := by
  intro s e count src ss dst ds ord he hi hwf hcount hread hwrite aw w cs m
  refine ⟨?_, fun hm haw k hk => ?_⟩
  · rw [exec_translate_of_wf he hi hwf]
    exact iterate_torn hcount hread hwrite
  · have hcell : cs[k]? = some (byteAddr aw dst k, sampleByte w k) := sampleCells_getElem w hk
    have hbyte := Memory.read_storeAll_marked_sampleCells (hold := s.hold) hm haw dst w hk
    refine ⟨fun hland => ⟨?_, ?_⟩, fun hkeep => ⟨?_, mem_marked.mpr ⟨k, hcell, hkeep⟩⟩⟩
    · exact hbyte.trans (if_neg (by simp [hland]))
    · exact addr_ne_of_marked (sampleCells_nodup (Nat.le_of_succ_le haw) dst w) hcell (by simp [hland])
    · exact hbyte.trans (if_pos hkeep)

/-- Settles O19. -/
theorem tornIterationInFlight : Obligations.TornIterationInFlight := by
  intro s n hold ts e f hts he hf hout hr hread hwrite w cs m
  refine ⟨?_, fun hm haw k hk => Memory.read_storeAll_marked_sampleCells hm haw f.dp w hk⟩
  rw [step_engine_turn hts, engineTurn_iterate he hf hout]
  exact iterate_torn hr hread hwrite

/-- Settles O20. -/
theorem tornSampleLandsPiecemeal : Obligations.TornSampleLandsPiecemeal := by
  intro s n hold ts e f hts he hf hout m kept
  refine ⟨?_, fun hm hd k c hc => Memory.read_storeAll_marked hm hd hc⟩
  rw [step_engine_turn hts, engineTurn_drain he hf hout, drained_torn]

/-- Settles O21: the landing turn that holds nothing back. -/
theorem sampleLandsBeforeTheNextRead : Obligations.SampleLandsBeforeTheNextRead := by
  intro s n ts e f hts he hf hout
  rw [step_engine_turn hts, engineTurn_drain he hf hout, drained_torn]
  simp only [BitVec.ofNat_eq_ofNat, marked_false_of_no_hold, marked_true_of_no_hold, and_true]

/-! ### Stuck instances (R61, R163, R164) -/

section Stuck
variable {s : State} {e : Engine} {f : Flight}

/-- A read outside the readable set. -/
theorem iterate_stuckRead (hr : f.rem ≠ 0) (hc : e.port.launch.canRead f.sp = false) :
    iterate s e f = .fault (.stuckRead s.cur f.sp) := by
  simp [iterate, hr, hc]

/-- A sample write some byte of which is outside the writable set. -/
theorem iterate_stuckWrite {k : Nat} (hr : f.rem ≠ 0) (hc : e.port.launch.canRead f.sp = true) (hk : k < sampleBytes)
    (hw : e.port.launch.canWrite (byteAddr s.cfg.addrW f.dp k) = false) :
    iterate s e f = .fault (.stuckWrite s.cur f.dp) := by
  have hall : (storesOf s e f).all (fun c => e.port.launch.canWrite c.1) = false :=
    List.all_eq_false.mpr ⟨_, mem_sampleCells.mpr ⟨k, hk, rfl⟩, by simp [hw]⟩
  simp [iterate, hr, hc, hall]

end Stuck

/-- Settles O22: the read is checked first, at acceptance as in flight. -/
theorem readOutsideTheLaunchIsStuck : Obligations.ReadOutsideTheLaunchIsStuck := by
  constructor
  · intro s e count src ss dst ds ord he hi hwf hcount hread
    rw [exec_translate_of_wf he hi hwf]
    exact iterate_stuckRead hcount hread
  · intro s n hold ts e f hts he hf hout hr hread
    rw [step_engine_turn hts, engineTurn_iterate he hf hout]
    exact iterate_stuckRead hr hread

/-- Settles O23: the four bytes are checked together. -/
theorem writeOutsideTheLaunchIsStuck : Obligations.WriteOutsideTheLaunchIsStuck := by
  constructor
  · intro s e count src ss dst ds k ord he hi hwf hcount hread hk hwrite
    rw [exec_translate_of_wf he hi hwf]
    exact iterate_stuckWrite hcount hread hk hwrite
  · intro s n k hold ts e f hts he hf hout hr hread hk hwrite
    rw [step_engine_turn hts, engineTurn_iterate he hf hout]
    exact iterate_stuckWrite hr hread hk hwrite

/-! ### The frame of the accepting step (R51, R100, R110, R113) -/

/-- RESET answers a next state by clearing the instance. -/
theorem exec_reset_next {s t : State} {e : Engine} (he : s.engines[s.cur]? = some e) (h : exec .reset s = .next t) :
    t = s.setEngine s.cur e.clear := by
  obtain ⟨d, hd, -, ⟨-, rfl⟩ | ⟨_, _, _, _, _, _, hne, -⟩⟩ := exec_next h
  · rw [Option.some.inj (he.symm.trans hd)]
  · cases hne

/-- TRANSLATE answers a next state by changing nothing, if it has no octets, or by its first iteration. -/
theorem exec_translate_next {s t : State} {e : Engine} {count src ss dst ds : Nat} {ord : BitOrder}
    (he : s.engines[s.cur]? = some e) (h : exec (.translate count src ss ord dst ds) s = .next t) :
    (zext s.cfg.addrW count = 0 ∧ t = s) ∨
      (zext s.cfg.addrW count ≠ 0 ∧ t = iterated s e (accepted s.cfg.addrW count src ss ord dst ds)) := by
  obtain ⟨d, hd, hi, ⟨hne, -⟩ | ⟨_, _, _, _, _, _, heq, hit⟩⟩ := exec_next h
  · cases hne
  · cases heq
    obtain rfl := Option.some.inj (he.symm.trans hd)
    rcases iterate_next hit with ⟨hr, rfl⟩ | ⟨hr, -, -, rfl⟩
    · refine .inl ⟨hr, ?_⟩
      rw [← hi]
      exact State.setEngine_self he
    · exact .inr ⟨hr, rfl⟩

/-- The instance after an iteration has its port, and its ring with one octet stepped in. -/
theorem iterated_lookup {s : State} {e : Engine} (he : s.engines[s.cur]? = some e) (f : Flight) :
    ∃ e', (iterated s e f).engines[s.cur]? = some e' ∧ e'.port = e.port ∧ e'.ring = e.ring.push (s.mem.read f.sp) :=
  ⟨_, State.setEngine_lookup_same (s := { s with mem := _ }) he, rfl, rfl⟩

/-- A command that answers a next state leaves its instance's port and, unless it is RESET, every slot but the one `WP`
names. -/
theorem exec_keeps_port_and_slots {i : Instr} {s t : State} (h : exec i s = .next t) :
    ∃ e e', s.engines[s.cur]? = some e ∧ t.engines[s.cur]? = some e' ∧ e'.port = e.port ∧
      (i ≠ .reset → ∀ x, x ≠ e.ring.wp → slotAt e'.ring.hist x = slotAt e.ring.hist x) := by
  obtain ⟨e, he, -⟩ := exec_next h
  cases i with
  | reset =>
    obtain rfl := exec_reset_next he h
    exact ⟨e, e.clear, he, State.setEngine_lookup_same he, rfl, fun hne => absurd rfl hne⟩
  | translate count src ss ord dst ds =>
    rcases exec_translate_next he h with ⟨-, rfl⟩ | ⟨-, rfl⟩
    · exact ⟨e, e, he, he, rfl, fun _ _ _ => rfl⟩
    · obtain ⟨e', he', hport, hring⟩ := iterated_lookup he (accepted s.cfg.addrW count src ss ord dst ds)
      refine ⟨e, e', he, he', hport, fun _ x hx => ?_⟩
      rw [hring, HistRing.push_hist, slotAt_putSlot_other _ _ hx]

/-- An update of memory and of instance `s.cur` leaves every other field and instance. -/
theorem State.OwnUpdate.frame {s t : State} (h : s.OwnUpdate t) :
    t.cfg = s.cfg ∧ t.host = s.host ∧ t.turns = s.turns ∧ t.cur = s.cur ∧ t.hold = s.hold ∧ t.cut = s.cut ∧
      ∀ m, m ≠ s.cur → t.engines[m]? = s.engines[m]? := by
  obtain ⟨m, e, rfl⟩ := h
  exact ⟨rfl, rfl, rfl, rfl, rfl, rfl, fun k hk => State.setEngine_lookup_other hk⟩

/-- Settles O24: a command updates its own place, and stores at most its first sample. -/
theorem commandFrame : Obligations.CommandFrame := by
  intro i s t h
  obtain ⟨e, he, -⟩ := exec_next h
  obtain ⟨hcfg, hhost, hturns, hcur, hhold, hcut, hothers⟩ := (exec_ownUpdate h).frame
  refine ⟨hcfg, hhost, hturns, hcur, hhold, hcut, hothers, exec_keeps_port_and_slots h, ?_, ?_, ?_⟩
  · rintro rfl
    rw [exec_reset_next he h, State.setEngine_mem]
  · rintro src ss ord dst ds rfl
    rcases exec_translate_next he h with ⟨-, rfl⟩ | ⟨hne, -⟩
    · exact ⟨rfl, rfl⟩
    · exact absurd (Nat.zero_mod _) hne
  · rintro count src ss ord dst ds rfl a ha
    rcases exec_translate_next he h with ⟨-, rfl⟩ | ⟨-, rfl⟩
    · rfl
    · exact Memory.read_storeAll_of_ne_byteAddr (fun c hc => landing_mem hc) ha

/-! ### What a turn sees and what it does (R61, R65) -/

/-- `s'` shows the turn of instance `s.cur` what `s` shows it: the configuration, the turn, the instance, and the bytes that
`l` declares readable. -/
structure State.SameView (l : Launch) (s s' : State) : Prop where
  cfg : s'.cfg = s.cfg
  cur : s'.cur = s.cur
  hold : s'.hold = s.hold
  engine : s'.engines[s.cur]? = s.engines[s.cur]?
  read : ∀ a, l.canRead a = true → s'.mem.read a = s.mem.read a

/-- The state with bytes stored and instance `s.cur` replaced. -/
def State.effect (s : State) (cs : List Host.Cell) (e : Engine) : State :=
  State.setEngine { s with mem := s.mem.storeAll cs } s.cur e

/-- At `s`, and wherever its view is the same, `run` stores one row of bytes, all of which `l` declares writable, and
replaces instance `s.cur`. -/
def LocalAt (l : Launch) (s : State) (run : State → Host.Outcome State Fault Refusal) : Prop :=
  ∃ cs e', (∀ c ∈ cs, l.canWrite c.1 = true) ∧ ∀ s', s.SameView l s' → run s' = .next (s'.effect cs e')

theorem State.SameView.refl (l : Launch) (s : State) : s.SameView l s := ⟨rfl, rfl, rfl, rfl, fun _ _ => rfl⟩

theorem State.SameView.symm {l : Launch} {s s' : State} (hv : s.SameView l s') : s'.SameView l s where
  cfg := hv.cfg.symm
  cur := hv.cur.symm
  hold := hv.hold.symm
  engine := by rw [hv.cur, hv.engine]
  read := fun a ha => (hv.read a ha).symm

section Local
variable {s t : State} {e : Engine} {f : Flight}

/-- The instance whose turn it is, in another state of the same view. -/
theorem State.SameView.lookup {l : Launch} {s' : State} (hv : s.SameView l s') (he : s.engines[s.cur]? = some e) :
    s'.engines[s'.cur]? = some e := by rw [hv.cur, hv.engine, he]

theorem State.effect_lookup_other {n : Nat} (hn : n ≠ s.cur) (cs : List Host.Cell) (e : Engine) :
    (s.effect cs e).engines[n]? = s.engines[n]? :=
  State.setEngine_lookup_other hn

theorem iterated_eq_effect (s : State) (e : Engine) (f : Flight) :
    iterated s e f =
      s.effect (landing s.hold 0 (storesOf s e f))
        { e with
          ring := e.ring.push (s.mem.read f.sp)
          flight := (f.advance s.cfg.addrW (lagging s.hold 0 (storesOf s e f))).settle } := rfl

theorem drained_eq_effect (s : State) (e : Engine) (f : Flight) :
    drained s e f =
      s.effect (landing s.hold 0 f.out) { e with flight := ({ f with out := lagging s.hold 0 f.out }).settle } := rfl

/-- The sample of an iteration whose read is admitted is the same for the same view. -/
theorem State.SameView.storesOf_eq {l : Launch} {s' : State} (hv : s.SameView l s') (hc : l.canRead f.sp = true) :
    storesOf s' e f = storesOf s e f := by
  simp only [storesOf, sampleOf, hv.cfg, hv.read _ hc]

/-- The loop's turn reads memory at `SP` alone, and only where it is readable. -/
theorem iterate_local (h : iterate s e f = .next t) : LocalAt e.port.launch s fun s' => iterate s' e f := by
  rcases iterate_next h with ⟨hr, -⟩ | ⟨hr, hc, hw, -⟩
  · exact ⟨[], { e with flight := none }, by simp, fun s' _ => iterate_of_done hr⟩
  · refine ⟨landing s.hold 0 (storesOf s e f),
      { e with
        ring := e.ring.push (s.mem.read f.sp)
        flight := (f.advance s.cfg.addrW (lagging s.hold 0 (storesOf s e f))).settle },
      fun c hmem => hw c (landing_mem hmem), fun s' hv => ?_⟩
    have hstores : storesOf s' e f = storesOf s e f := hv.storesOf_eq hc
    beta_reduce
    rw [iterate_of_admitted hr hc (hstores ▸ hw), iterated_eq_effect, hstores, hv.hold, hv.cfg, hv.read _ hc]

/-- RESET reads and stores nothing; TRANSLATE is the loop's turn. -/
theorem exec_local {i : Instr} (he : s.engines[s.cur]? = some e) (h : exec i s = .next t) :
    LocalAt e.port.launch s (exec i) := by
  obtain ⟨d, hd, hi, hcases⟩ := exec_next h
  obtain rfl := Option.some.inj (he.symm.trans hd)
  rcases hcases with ⟨rfl, -⟩ | ⟨count, src, ss, ord, dst, ds, rfl, hit⟩
  · exact ⟨[], e.clear, by simp, fun s' hv => onIdle_of_idle _ (hv.lookup he) hi⟩
  · obtain ⟨cs, e', hcs, hrun⟩ := iterate_local hit
    refine ⟨cs, e', hcs, fun s' hv => (onIdle_of_idle _ (hv.lookup he) hi).trans ?_⟩
    rw [hv.cfg]
    exact hrun s' hv

theorem State.takePacket_lookup (he : s.engines[s.cur]? = some e) :
    (s.takePacket e).engines[s.cur]? = some { e with port := { e.port with words := [] } } :=
  State.setEngine_lookup_same he

/-- Taking the packet off the port keeps views the same. -/
theorem State.SameView.takePacket {l : Launch} {s' : State} (he : s.engines[s.cur]? = some e) (hv : s.SameView l s') :
    (s.takePacket e).SameView l (s'.takePacket e) where
  cfg := hv.cfg
  cur := hv.cur
  hold := hv.hold
  engine := by
    have hs' := State.takePacket_lookup (hv.lookup he)
    rw [hv.cur] at hs'
    exact hs'.trans (State.takePacket_lookup he).symm
  read := hv.read

theorem State.effect_takePacket (s : State) (e e' : Engine) (cs : List Host.Cell) :
    (s.takePacket e).effect cs e' = s.effect cs e' := by
  simp [State.effect, State.takePacket, State.setEngine]

/-- An instance with nothing to do has no packet on its port. -/
theorem idle_of_work_idle (he : s.engines[s.cur]? = some e) (h : s.work = .idle) :
    e.flight = none ∧ e.port.words = [] := by
  simp only [State.work, he] at h
  split at h
  · rename_i hf
    refine ⟨hf, ?_⟩
    unfold portWork at h
    split at h
    · assumption
    · split at h <;> cases h
  · split at h <;> cases h

/-- An idle instance's turn with nothing on its port. -/
theorem engineTurn_idle (he : s.engines[s.cur]? = some e) (hi : e.flight = none) (hp : e.port.words = []) :
    engineTurn s = .next s := by
  simp [engineTurn, State.work, he, hi, portWork, hp]

/-- The turn of a legal instance that answers a next state stores only bytes of its writable set, and stores and steps the
same wherever its own instance and its readable bytes are the same. -/
theorem engineTurn_local (he : s.engines[s.cur]? = some e) (hok : e.ok s.cfg.addrW = true)
    (h : engineTurn s = .next t) : LocalAt e.port.launch s engineTurn := by
  rcases engineTurn_next h with ⟨hw, -⟩ | ⟨d, f, hd, hf, hout, -⟩ | ⟨d, f, hd, hf, hout, hit⟩ | ⟨d, i, hd, hi, hdec, hex⟩
  · obtain ⟨hi, hp⟩ := idle_of_work_idle he hw
    refine ⟨[], e, by simp, fun s' hv => (engineTurn_idle (hv.lookup he) hi hp).trans ?_⟩
    exact congrArg _ (State.setEngine_self (hv.lookup he)).symm
  all_goals obtain rfl := Option.some.inj (he.symm.trans hd)
  · obtain ⟨-, -, -, -, -, -, -, hcells, -⟩ := Flight.ok_iff.mp ((Engine.ok_iff.mp hok).2 f hf)
    refine ⟨landing s.hold 0 f.out, { e with flight := ({ f with out := lagging s.hold 0 f.out }).settle },
      fun c hc => (hcells c (landing_mem hc)).2, fun s' hv => ?_⟩
    rw [engineTurn_drain (hv.lookup he) hf hout, drained_eq_effect, hv.hold]
  · obtain ⟨cs, e', hcs, hrun⟩ := iterate_local hit
    exact ⟨cs, e', hcs, fun s' hv => (engineTurn_iterate (hv.lookup he) hf hout).trans (hrun s' hv)⟩
  · obtain ⟨cs, e', hcs, hrun⟩ := exec_local (State.takePacket_lookup he) hex
    refine ⟨cs, e', hcs, fun s' hv => ?_⟩
    have hdec' : decode s'.cfg.addrW e.port.words = .ok i [] := hv.cfg ▸ hdec
    rw [engineTurn_accept (hv.lookup he) hi hdec', hrun _ (hv.takePacket he), State.effect_takePacket]

end Local

/-- The state in which instance `n` takes its turn, `ts` being the turns left after it. -/
def State.atTurn (s : State) (n : Nat) (hold : BitVec 4) (ts : List Turn) : State :=
  { s with turns := ts, cur := n, hold := hold }

/-- A step at the settled turn of a legal instance: what it stores, inside the instance's writable set, and that it does the
same wherever its view is the same. -/
theorem step_local {s t : State} {n : Nat} {hold : BitVec 4} {ts : List Turn} {e : Engine}
    (hts : s.turns = .engine n hold :: ts) (he : s.engines[n]? = some e) (hok : e.ok s.cfg.addrW = true)
    (h : step s = .next t) :
    ∃ cs e', (∀ c ∈ cs, e.port.launch.canWrite c.1 = true) ∧ t = (s.atTurn n hold ts).effect cs e' ∧
      ∀ s' ts', s'.turns = .engine n hold :: ts' →
        (s.atTurn n hold ts).SameView e.port.launch (s'.atTurn n hold ts') →
          step s' = .next ((s'.atTurn n hold ts').effect cs e') := by
  have hturn : engineTurn (s.atTurn n hold ts) = .next t := (step_engine_turn hts).symm.trans h
  obtain ⟨cs, e', hcs, hrun⟩ := engineTurn_local (s := s.atTurn n hold ts) he hok hturn
  have ht := Host.Outcome.next.inj (hturn.symm.trans (hrun _ (.refl _ _)))
  exact ⟨cs, e', hcs, ht, fun s' ts' hts' hv => (step_engine_turn hts').trans (hrun _ hv)⟩

/-- Bytes stored outside a set leave the bytes of the set as they were. -/
theorem Memory.read_storeAll_of_disjoint {m : Memory} {cs : List Host.Cell} {p : Nat → Bool} {a : Nat}
    (hcs : ∀ c ∈ cs, p c.1 = false) (ha : p a = true) : (m.storeAll cs).read a = m.read a := by
  refine Memory.read_storeAll_other m cs a fun c hc hca => ?_
  have hno := hcs c hc
  rw [hca, ha] at hno
  cases hno

/-- Settles O54. -/
theorem writesStayInTheLaunch : Obligations.WritesStayInTheLaunch := by
  intro s t n hold ts e hs hts he h a ha
  obtain ⟨cs, e', hcs, rfl, -⟩ := step_local hts he (hs.engine_ok he) h
  exact Memory.read_storeAll_of_disjoint (p := fun a => !e.port.launch.canWrite a) (fun c hc => by simp [hcs c hc])
    (by simp [ha])

/-! ### Launch memories that do not meet (R65, R72) -/

/-- Regions that are apart share no address. -/
theorem Region.apart_disjoint {r q : Region} {a : Nat} (h : r.apart q = true) (hr : r.has a = true) :
    q.has a = false := by
  simp only [Region.apart, Region.has, Bool.or_eq_true, Bool.and_eq_true, decide_eq_true_eq] at h hr
  rw [← Bool.not_eq_true]
  simp only [Region.has, Bool.and_eq_true, decide_eq_true_eq]
  omega

theorem regionsApart_disjoint {rs qs : List Region} {a : Nat} (h : regionsApart rs qs = true)
    (hr : rs.any (fun r => r.has a) = true) : qs.any (fun q => q.has a) = false := by
  obtain ⟨r, hrs, hra⟩ := List.any_eq_true.mp hr
  refine List.any_eq_false.mpr fun q hqs => ?_
  have hrq : r.apart q = true := List.all_eq_true.mp (List.all_eq_true.mp h r hrs) q hqs
  simp [Region.apart_disjoint hrq hra]

/-- Of launch memories that are apart, what the one may write the other may neither write nor read, and what the other may
write the one may not read. -/
theorem Launch.apart_disjoint {l k : Launch} (h : l.apart k = true) :
    (∀ a, l.canWrite a = true → k.canWrite a = false) ∧ (∀ a, l.canWrite a = true → k.canRead a = false) ∧
      ∀ a, k.canWrite a = true → l.canRead a = false := by
  simp only [Launch.apart, Bool.and_eq_true] at h
  obtain ⟨⟨hww, hwr⟩, hrw⟩ := h
  refine ⟨fun a => regionsApart_disjoint hww, fun a => regionsApart_disjoint hwr, fun a hw => ?_⟩
  rw [← Bool.not_eq_true]
  intro hr
  exact Bool.false_ne_true ((regionsApart_disjoint hrw hr).symm.trans hw)

/-- Memories that read the same at an address do so after the same stores. -/
theorem Memory.read_storeAll_congr {m k : Memory} (cs : List Host.Cell) {a : Nat} (hm : m.Wf) (hk : k.Wf)
    (h : m.read a = k.read a) : (m.storeAll cs).read a = (k.storeAll cs).read a := by
  induction cs generalizing m k with
  | nil => exact h
  | cons c cs ih =>
    refine ih (Memory.write_wf _ _ hm) (Memory.write_wf _ _ hk) ?_
    by_cases ha : a = c.1
    · rw [ha, Memory.read_write_same m _ _ hm, Memory.read_write_same k _ _ hk]
    · rw [Memory.read_write_other m _ _ _ ha, Memory.read_write_other k _ _ _ ha, h]

/-- Stores to bytes none of which is in both rows commute: at each address at most one of the rows counts. -/
theorem Memory.storeAll_comm {m : Memory} {cs ds : List Host.Cell} (hm : m.Wf) (h : ∀ c ∈ cs, ∀ d ∈ ds, c.1 ≠ d.1) :
    (m.storeAll cs).storeAll ds = (m.storeAll ds).storeAll cs := by
  have hcs := Memory.storeAll_wf cs hm
  have hds := Memory.storeAll_wf ds hm
  refine Memory.ext_of_wf (Memory.storeAll_wf ds hcs) (Memory.storeAll_wf cs hds) fun a => ?_
  by_cases ha : ∃ c ∈ cs, c.1 = a
  · obtain ⟨c, hc, rfl⟩ := ha
    have hout : ∀ d ∈ ds, d.1 ≠ c.1 := fun d hd => (h c hc d hd).symm
    rw [Memory.read_storeAll_other _ ds _ hout]
    exact Memory.read_storeAll_congr cs hm hds (Memory.read_storeAll_other m ds _ hout).symm
  · have hout : ∀ c ∈ cs, c.1 ≠ a := fun c hc hca => ha ⟨c, hc, hca⟩
    rw [Memory.read_storeAll_other _ cs _ hout]
    exact Memory.read_storeAll_congr ds hcs hm (Memory.read_storeAll_other m cs _ hout)

/-! ### Two turns -/

/-- A run answers a next state exactly when its first step does and the rest of it from there. -/
theorem runSteps_succ_eq_next_iff {k : Nat} {s t : State} :
    runSteps (k + 1) s = .next t ↔ ∃ u, step s = .next u ∧ runSteps k u = .next t := by
  cases hu : step s with
  | next u => simp [runSteps_succ_of_next hu]
  | fault r => simp [runSteps_succ_of_fault hu]
  | refused r => simp [runSteps, hu]

theorem runSteps_two_iff {s t : State} : runSteps 2 s = .next t ↔ ∃ u, step s = .next u ∧ step u = .next t := by
  simp only [runSteps_succ_eq_next_iff, runSteps_zero, Host.Outcome.next.injEq, exists_eq_right]

/-- What another instance's turn stores outside the bytes that `l` declares readable does not show. -/
theorem State.effect_sameView {l : Launch} {s : State} {cs : List Host.Cell} {n : Nat} (hn : n ≠ s.cur)
    (hcs : ∀ c ∈ cs, l.canRead c.1 = false) (e : Engine) (hold : BitVec 4) (ts us : List Turn) :
    (s.atTurn n hold us).SameView l ((s.effect cs e).atTurn n hold ts) where
  cfg := rfl
  cur := rfl
  hold := rfl
  engine := State.effect_lookup_other hn cs e
  read := fun _ ha => Memory.read_storeAll_of_disjoint hcs ha

/-- Settles O55: each turn leaves what the other looks at, so it does the same before the other as after it, and no address
is in both rows of stored bytes. -/
theorem disjointInstancesCommute : Obligations.DisjointInstancesCommute := by
  intro s t n m h k e d hs hnm he hd hapart hrun
  obtain ⟨hww, hwr, hrw⟩ := Launch.apart_disjoint hapart
  obtain ⟨u, hu, ht⟩ := runSteps_two_iff.mp hrun
  obtain ⟨cs, e', hcs, rfl, hfirst⟩ :=
    step_local (s := { s with turns := [.engine n h, .engine m k] }) rfl he (hs.engine_ok he) hu
  have hd' := (State.effect_lookup_other (s := s.atTurn n h [.engine m k]) hnm.symm cs e').trans hd
  obtain ⟨ds, d', hds, rfl, hsecond⟩ := step_local rfl hd' (hs.engine_ok hd) ht
  have hcsUnread : ∀ c ∈ cs, d.port.launch.canRead c.1 = false := fun c hc => hwr _ (hcs c hc)
  have hdsUnread : ∀ c ∈ ds, e.port.launch.canRead c.1 = false := fun c hc => hrw _ (hds c hc)
  have hapartCells : ∀ c ∈ ds, ∀ b ∈ cs, c.1 ≠ b.1 := fun c hc b hb hcb => by
    have hno := hww _ (hcs b hb)
    rw [← hcb, hds c hc] at hno
    cases hno
  have hm := hsecond { s with turns := [.engine m k, .engine n h] } [.engine n h] rfl
    (State.effect_sameView (s := s.atTurn n h [.engine m k]) hnm.symm hcsUnread _ _ _ _).symm
  have hn := hfirst _ [] rfl (State.effect_sameView (s := s.atTurn m k [.engine n h]) hnm hdsUnread d' _ _ _)
  obtain ⟨-, hwf, -⟩ := hs
  exact ⟨_, runSteps_two_iff.mpr ⟨_, hm, hn⟩, Memory.storeAll_comm hwf hapartCells, List.set_comm _ _ hnm.symm, rfl, rfl,
    rfl⟩

end Sys2Proof.Machine
end

section
/-! The encoding (spec/30_encoding.md): the opcode map, the decoder and the encoder as inverses of one another, a packet's
length and its bit string, the examples, the signed strides, and the turn that takes a packet off a port. -/

namespace Sys2Proof

/-! ### The opcode map (R81, R85, R86, R88) -/

/-- A command word is its three fields (R81). -/
theorem eq_of_w0_fields {w v : BitVec 32} (hopc : w0Opc w = w0Opc v) (hord : w0Ord w = w0Ord v)
    (hrsv : w0Rsv w = w0Rsv v) : w = v := by
  refine BitVec.eq_of_getLsbD_eq fun i hi => ?_
  rcases lt_trichotomy i 8 with hlow | rfl | hhigh
  · simpa [w0Opc, hlow] using congrArg (·.getLsbD i) hopc
  · exact hord
  · have hbit := congrArg (·.getLsbD (i - 9)) hrsv
    rwa [w0Rsv, w0Rsv, BitVec.getLsbD_extractLsb', BitVec.getLsbD_extractLsb', Nat.add_sub_of_le hhigh,
      decide_eq_true (show i - 9 < 23 by omega), Bool.true_and, Bool.true_and] at hbit

theorem w0Opc_and (w v : BitVec 32) : w0Opc (w &&& v) = w0Opc w &&& w0Opc v := BitVec.extractLsb'_and

theorem w0Rsv_and (w v : BitVec 32) : w0Rsv (w &&& v) = w0Rsv w &&& w0Rsv v := BitVec.extractLsb'_and

/-- The fields of TRANSLATE's first word (R83, R85). -/
theorem w0_fields_translateW0 (ord : BitOrder) :
    w0Opc (BitVec.ofNat 32 (translateW0 ord)) = 0x02 ∧ bitOrderOf (w0Ord (BitVec.ofNat 32 (translateW0 ord))) = ord ∧
      w0Rsv (BitVec.ofNat 32 (translateW0 ord)) = 0 := by
  cases ord <;> decide

theorem bitOrderOf_injective : Function.Injective bitOrderOf := by decide

/-- TRANSLATE's first word is known from its fields. -/
theorem eq_translateW0_of_fields {w : BitVec 32} (hopc : w0Opc w = 0x02) (hrsv : w0Rsv w = 0) :
    w = BitVec.ofNat 32 (translateW0 (bitOrderOf (w0Ord w))) := by
  obtain ⟨hopc', hord', hrsv'⟩ := w0_fields_translateW0 (bitOrderOf (w0Ord w))
  exact eq_of_w0_fields (hopc.trans hopc'.symm) (bitOrderOf_injective hord'.symm) (hrsv.trans hrsv'.symm)

theorem decodeW0_eq_reset_iff {w : BitVec 32} : decodeW0 w = .reset ↔ w = 0x00000001 := by
  refine ⟨fun h => ?_, fun h => h ▸ decodeW0_reset⟩
  unfold decodeW0 at h
  split_ifs at h with hrsv hopc hord
  exact eq_of_w0_fields hopc (Bool.eq_false_iff.mpr hord) (not_not.mp hrsv)

theorem decodeW0_eq_translate_iff {w : BitVec 32} {ord : BitOrder} :
    decodeW0 w = .translate ord ↔ w = BitVec.ofNat 32 (translateW0 ord) := by
  refine ⟨fun h => ?_, fun h => h ▸ decodeW0_translate ord⟩
  unfold decodeW0 at h
  split_ifs at h with hrsv hreset hord hopc
  cases h
  exact eq_translateW0_of_fields hopc (not_not.mp hrsv)

/-- R86's mask form: the mask drops `ORD` alone. -/
theorem exists_decodeW0_translate_iff {w : BitVec 32} :
    (∃ ord, decodeW0 w = .translate ord) ↔ w &&& 0xFFFFFEFF = 0x00000002 := by
  constructor
  · rintro ⟨ord, h⟩
    rw [decodeW0_eq_translate_iff.mp h]
    cases ord <;> decide
  · intro h
    have hopc : w0Opc w = 0x02 := by
      have hmask := congrArg w0Opc h
      rwa [w0Opc_and, show w0Opc 0xFFFFFEFF = BitVec.allOnes 8 by decide, BitVec.and_allOnes] at hmask
    have hrsv : w0Rsv w = 0 := by
      have hmask := congrArg w0Rsv h
      rwa [w0Rsv_and, show w0Rsv 0xFFFFFEFF = BitVec.allOnes 23 by decide, BitVec.and_allOnes] at hmask
    exact ⟨_, decodeW0_eq_translate_iff.mpr (eq_translateW0_of_fields hopc hrsv)⟩

theorem exists_decodeW0_invalid_iff {w : BitVec 32} :
    (∃ r, decodeW0 w = .invalid r) ↔ decodeW0 w ≠ .reset ∧ ¬∃ ord, decodeW0 w = .translate ord := by
  cases decodeW0 w <;> simp

/-- Settles O1. -/
theorem opcodeMapIsExact : Obligations.OpcodeMapIsExact := by
  intro w
  refine ⟨decodeW0_eq_reset_iff, decodeW0_eq_translate_iff, decodeW0_eq_translate_iff, exists_decodeW0_translate_iff, ?_⟩
  rw [exists_decodeW0_invalid_iff, exists_decodeW0_translate_iff, Ne, decodeW0_eq_reset_iff]

/-! ### Decoder and encoder (R87, R92) -/

section Decode
variable {aw w : Nat} {ws rest : List Nat} {i : Instr} {ord : BitOrder}

theorem decode_of_reset (hw : w < 2 ^ 32) (h : decodeW0 (BitVec.ofNat 32 w) = .reset) :
    decode aw (w :: ws) = .ok .reset ws := by
  simp only [decode, if_pos hw, h]

theorem decode_of_translate (hw : w < 2 ^ 32) (h : decodeW0 (BitVec.ofNat 32 w) = .translate ord) :
    decode aw (w :: ws) = decodeOperands aw ord ws := by
  simp only [decode, if_pos hw, h]

/-- A command the decoder answers begins with a word of 32 bits that selects it. -/
theorem decode_ok_cases (h : decode aw ws = .ok i rest) :
    ∃ w vs, ws = w :: vs ∧ w < 2 ^ 32 ∧
      ((decodeW0 (BitVec.ofNat 32 w) = .reset ∧ i = .reset ∧ rest = vs) ∨
        ∃ ord, decodeW0 (BitVec.ofNat 32 w) = .translate ord ∧ decodeOperands aw ord vs = .ok i rest) := by
  cases ws with
  | nil => cases h
  | cons w vs =>
    by_cases hw : w < 2 ^ 32
    · refine ⟨w, vs, rfl, hw, ?_⟩
      cases hv : decodeW0 (BitVec.ofNat 32 w) with
      | reset =>
        rw [decode_of_reset hw hv] at h
        cases h
        exact .inl ⟨rfl, rfl, rfl⟩
      | translate ord => exact .inr ⟨ord, rfl, decode_of_translate hw hv ▸ h⟩
      | invalid r =>
        rw [decode_of_invalid hw hv] at h
        cases h
    · rw [decode, if_neg hw] at h
      cases h

/-- The operand words are read exactly when there are five of them and each fits. -/
theorem decodeOperands_ok_iff :
    decodeOperands aw ord ws = .ok i rest ↔
      ∃ count src ss dst ds, i = .translate count src ss ord dst ds ∧ i.wf aw = true ∧
        count :: src :: ss :: dst :: ds :: rest = ws := by
  constructor
  · intro h
    unfold decodeOperands at h
    split at h
    · split_ifs at h with hwf
      cases h
      exact ⟨_, _, _, _, _, rfl, hwf, rfl⟩
    · cases h
  · rintro ⟨count, src, ss, dst, ds, rfl, hwf, rfl⟩
    simp only [decodeOperands, if_pos hwf]

/-- Words below `2^32` with the same bit pattern are equal. -/
theorem eq_of_ofNat32_eq {v : Nat} (hw : w < 2 ^ 32) (hv : v < 2 ^ 32) (h : BitVec.ofNat 32 w = BitVec.ofNat 32 v) :
    w = v := by
  have hmod : w % 2 ^ 32 = v % 2 ^ 32 := by simpa using congrArg BitVec.toNat h
  rwa [Nat.mod_eq_of_lt hw, Nat.mod_eq_of_lt hv] at hmod

theorem decodeW0_ofNat_eq_reset_iff (hw : w < 2 ^ 32) : decodeW0 (BitVec.ofNat 32 w) = .reset ↔ w = 1 :=
  decodeW0_eq_reset_iff.trans ⟨eq_of_ofNat32_eq hw (by decide), fun h => h ▸ rfl⟩

theorem decodeW0_ofNat_eq_translate_iff (hw : w < 2 ^ 32) :
    decodeW0 (BitVec.ofNat 32 w) = .translate ord ↔ w = translateW0 ord :=
  decodeW0_eq_translate_iff.trans ⟨eq_of_ofNat32_eq hw (translateW0_lt ord), fun h => h ▸ rfl⟩

end Decode

/-- Settles O3: the first word selects the command, and the operand words are read in their order. -/
theorem decodeOfEncode : Obligations.DecodeOfEncode := by
  intro aw i rest hwf
  cases i with
  | reset => exact decode_of_reset (by decide) decodeW0_reset
  | translate count src ss ord dst ds =>
    calc decode aw (encode (.translate count src ss ord dst ds) ++ rest)
        = decodeOperands aw ord (count :: src :: ss :: dst :: ds :: rest) :=
          decode_of_translate (translateW0_lt ord) (decodeW0_translate ord)
      _ = .ok (.translate count src ss ord dst ds) rest :=
          decodeOperands_ok_iff.mpr ⟨_, _, _, _, _, rfl, hwf, rfl⟩

/-- Settles O4: only one word of 32 bits selects each command (R86). -/
theorem encodeOfDecode : Obligations.EncodeOfDecode := by
  intro aw ws rest i h
  obtain ⟨w, vs, rfl, hw, ⟨hreset, rfl, rfl⟩ | ⟨ord, htranslate, hoperands⟩⟩ := decode_ok_cases h
  · obtain rfl := (decodeW0_ofNat_eq_reset_iff hw).mp hreset
    exact ⟨rfl, rfl⟩
  · obtain rfl := (decodeW0_ofNat_eq_translate_iff hw).mp htranslate
    obtain ⟨count, src, ss, dst, ds, rfl, hwf, rfl⟩ := decodeOperands_ok_iff.mp hoperands
    exact ⟨hwf, rfl⟩

/-! ### A packet as one bit string (R83) -/

/-- Settles O5: the fields' places are those of the packet's words, one after another. -/
theorem packetAsOneBitString : Obligations.PacketAsOneBitString := by
  intro count src ss dst ds ord
  have hc := count.isLt
  have hs := src.isLt
  have hss := ss.isLt
  have hd := dst.isLt
  have hds := ds.isLt
  have hw0 : 0x02 + (if ord then 1 else 0) * 2 ^ 8 = translateW0 (bitOrderOf ord) := by cases ord <;> rfl
  have hw0lt := translateW0_lt (bitOrderOf ord)
  have hwf : (Instr.translate count.toNat src.toNat ss.toNat (bitOrderOf ord) dst.toNat ds.toNat).wf 32 = true := by
    simp [Instr.wf, hc, hs, hss, hd, hds]
  show decodeTableWord 192 _ = some (.translate _ _ _ (bitOrderOf ord) _ _)
  rw [hw0]
  refine decodeTableWord_of_words ?_ (decodeOfEncode 32 _ [] hwf)
  rw [List.append_nil, Nat.mod_eq_of_lt (by omega), ← wordsOfBits_pack (bitOrderOf ord) hc hs hss hd hds]
  congr 1
  ring

/-! ### The length of a packet (R82, R83, R87) -/

theorem firstWordGivesLength (i : Instr) : Laws.FirstWordGivesLength.Statement i := by
  cases i with
  | reset => exact Laws.FirstWordGivesLength.reset
  | translate => exact Laws.FirstWordGivesLength.translate _ _ _ _ _ _

/-- Words that begin as a command's packet does are one packet when they are as many. -/
theorem onePacket_cons_iff_length {i : Instr} {w : Nat} {ws : List Nat} (hi : encode i = w :: ws) (vs : List Nat) :
    onePacket (w :: vs) = true ↔ vs.length = ws.length := by
  obtain ⟨w', ws', hi', hlen⟩ := firstWordGivesLength i
  obtain ⟨rfl, rfl⟩ := List.cons.inj (hi.symm.trans hi')
  rw [onePacket, decide_eq_true_iff, hlen, hi, List.length_cons, Nat.add_right_cancel_iff]

/-- Settles O46: what begins as a packet is one by its length alone. -/
theorem encodedWordsAreOnePacket : Obligations.EncodedWordsAreOnePacket := by
  intro i
  obtain ⟨w, ws, hi, -⟩ := firstWordGivesLength i
  have hone := onePacket_cons_iff_length hi
  rw [hi]
  refine ⟨(hone ws).mpr rfl, fun v => ?_, ?_⟩
  · rw [← Bool.not_eq_true, List.cons_append, hone]
    simp
  · cases ws with
    | nil => rfl
    | cons v vs =>
      rw [← Bool.not_eq_true, List.dropLast_cons_cons, hone]
      simp

end Sys2Proof

namespace Sys2Proof.Machine

/-! ### Examples (R93) -/

/-- Settles O6: each packet is the encoding of its command. -/
theorem encodingExamples : Obligations.EncodingExamples := by
  refine ⟨decodeOfEncode 32 .reset [] rfl, decodeOfEncode 32 (.translate 4 0x1000 1 .msbf 0x2000 1) [] (by decide),
    decodeOfEncode 32 (.translate 3 0x1001 2 .lsbf 0x2004 2) [] (by decide),
    decodeOfEncode 32 (.translate 4 0x1003 0xFFFFFFFF .msbf 0x200C 0xFFFFFFFF) [] (by decide), by decide, ?_⟩
  simp only [exists_decodeW0_invalid_iff, exists_decodeW0_translate_iff]
  decide

/-! ### Strides (R84, R52 to R54) -/

/-- An advance of a pointer by a multiple of a sign-extended stride wraps as the multiple of the pattern does. -/
theorem wrap_add_mul_sext (aw p k v : Nat) : wrap aw (p + k * sext aw v) = (p + k * v) % 2 ^ aw := by
  have hmod : (p + k * sext aw v : Int) ≡ p + k * v [ZMOD 2 ^ aw] := (Int.ModEq.mul_left k (sext_emod aw v)).add_left p
  rw [wrap_congr hmod]
  zify
  exact wrap_cast aw _

/-- Settles O44: a pattern and its signed reading are the same modulo `2^ADDR_W`. -/
theorem stridesAreModular : Obligations.StridesAreModular := by
  intro aw p v haw _
  refine ⟨sext_fits haw v, ?_, wrap_add_mul_sext aw p 4 v⟩
  simpa [nextSp] using wrap_add_mul_sext aw p 1 v

/-! ### The turn that takes a packet (R80, R87, R88, R177) -/

section Turn
variable {s : State} {n : Nat} {e : Engine} {r : Reject}

/-- A step whose turn is the default one. -/
theorem step_default_turn {t : Turn} (hts : s.turns = []) (hd : s.defaultTurn = some t) : step s = takeTurn s t := by
  simp only [step, hts, hd]

/-- An idle instance's turn with words on its port that it rejects. -/
theorem engineTurn_of_reject (he : s.engines[s.cur]? = some e) (hi : e.flight = none) (hw : portWork s e = .reject r) :
    engineTurn s = .refused (.invalidCommand r) := by
  simp only [engineTurn, State.work, he, hi, hw]

theorem portWork_of_rejected (hw : e.port.words ≠ []) (hd : decode s.cfg.addrW e.port.words = .rejected r) :
    portWork s e = .reject r := by
  obtain ⟨w, ws, hws⟩ := List.exists_cons_of_ne_nil hw
  rw [hws] at hd
  simp only [portWork, hws, hd]

theorem portWork_of_extraWords {i : Instr} {rest : List Nat} (hrest : rest ≠ [])
    (hd : decode s.cfg.addrW e.port.words = .ok i rest) : portWork s e = .reject .extraWords := by
  obtain ⟨w, ws, hws, -⟩ := decode_ok_cases hd
  obtain ⟨v, vs, rfl⟩ := List.exists_cons_of_ne_nil hrest
  rw [hws] at hd
  simp only [portWork, hws, hd]

end Turn

/-- Settles O2: the word is neither RESET's nor one of TRANSLATE's two. -/
theorem invalidWordIsRefused : Obligations.InvalidWordIsRefused := by
  intro s n hold ts e w ws hts he hi hws hw hfields
  have hinvalid : ∃ r, decodeW0 (BitVec.ofNat 32 w) = .invalid r := by
    rw [exists_decodeW0_invalid_iff]
    constructor
    · rw [Ne, decodeW0_ofNat_eq_reset_iff hw]
      omega
    · rintro ⟨ord, h⟩
      obtain rfl := (decodeW0_ofNat_eq_translate_iff hw).mp h
      cases ord <;> exact absurd hfields (by decide)
  obtain ⟨r, hr⟩ := hinvalid
  have hd : decode s.cfg.addrW e.port.words = .rejected r := hws ▸ decode_of_invalid hw hr
  rw [step_engine_turn hts]
  exact ⟨r, engineTurn_of_reject he hi (portWork_of_rejected (by simp [hws]) hd)⟩

/-- Settles O7. -/
theorem stepExecutesThePacket : Obligations.StepExecutesThePacket := by
  refine ⟨fun s n e i he hi hd => ⟨fun hold ts hts => ?_, fun hts hdefault => ?_⟩, ?_⟩
  · rw [step_engine_turn hts]
    exact engineTurn_accept he hi hd
  · rw [step_default_turn hts hdefault]
    exact engineTurn_accept (s := { s with cur := n, hold := 0 }) he hi hd
  · intro s n hold ts e i rest hts he hi hd hrest
    rw [step_engine_turn hts]
    exact engineTurn_of_reject he hi (portWork_of_extraWords hrest hd)

end Sys2Proof.Machine
end

section
/-! RESET (spec/40_reset.md): its next state, and what follows from it for the instance it ran on. -/

namespace Sys2Proof.Machine

/-! ### RESET on an idle instance (R100) -/

section Reset
variable {s : State} {e : Engine}

/-- RESET on an idle instance clears that instance. -/
theorem exec_reset_of_idle (he : s.engines[s.cur]? = some e) (hi : e.flight = none) :
    exec .reset s = .next (s.setEngine s.cur e.clear) :=
  onIdle_of_idle _ he hi

theorem Engine.clear_clear : e.clear.clear = e.clear := rfl

/-- A cleared instance is the one after hardware reset, but for its port. -/
theorem Engine.clear_eq_fresh : e.clear = { Engine.fresh with port := e.port } := rfl

/-- RESET on the instance it has just cleared. -/
theorem exec_reset_setEngine_clear (he : s.engines[s.cur]? = some e) :
    exec .reset (s.setEngine s.cur e.clear) = .next (s.setEngine s.cur e.clear) := by
  have hcleared : (s.setEngine s.cur e.clear).engines[s.cur]? = some e.clear := State.setEngine_lookup_same he
  rw [exec_reset_of_idle hcleared rfl, State.setEngine_cur, State.setEngine_setEngine, Engine.clear_clear]

end Reset

/-- Settles O11: the values written out are those of the cleared instance. -/
theorem resetReturnsToFresh : Obligations.ResetReturnsToFresh :=
  fun _ _ => exec_reset_of_idle

/-- Settles O12: the instance is cleared, and idle, after the first RESET. -/
theorem resetIsIdempotent : Obligations.ResetIsIdempotent :=
  fun _ _ he hi => ⟨_, exec_reset_of_idle he hi, exec_reset_setEngine_clear he⟩

/-- Settles O13: the cleared instance has the fresh ring, and the configuration is the same. -/
theorem resetIsAsFreshlyConstructed : Obligations.ResetIsAsFreshlyConstructed := by
  intro s e he hi
  have hcleared : (s.setEngine s.cur e.clear).engines[s.cur]? = some e.clear := State.setEngine_lookup_same he
  refine ⟨_, exec_reset_of_idle he hi, hcleared.trans (congrArg some Engine.clear_eq_fresh), fun e' he' ord os => ?_⟩
  obtain rfl : e.clear = e' := Option.some.inj (hcleared.symm.trans he')
  rw [Engine.clear_ring, State.setEngine_cfg]

end Sys2Proof.Machine
end

section
/-! The TRANSLATE command (spec/41_translate.md): the ring after any octets, one iteration, the whole command with its end
or the access it is stuck at, its division into two commands, and its independence of the addresses. -/

namespace Sys2Proof.Machine

/-! ### The ring after octets (R118) -/

/-- Lag `m - 1` of the newest slot is the slot `m` places behind the write position. -/
theorem atLag_sub_one (h : Vector Octet histCap) (j : RingPos) {m : Nat} (hm : 1 ≤ m) :
    atLag h (j - 1) (m - 1) = slotAt h (j - BitVec.ofNat 4 m) := by
  obtain ⟨k, rfl⟩ := Nat.exists_eq_add_of_le' hm
  rw [Nat.add_sub_cancel, atLag, BitVec.ofNat_add]
  exact congrArg (slotAt h) (sub_add_eq_sub_sub_swap _ _ _).symm

/-- Settles O35: the slot `m` places behind `WP` is lag `m - 1`, before the octets as after them. -/
theorem ringAfterOctets : Obligations.RingAfterOctets := by
  intro r os
  have hslot : ∀ m, 1 ≤ m → m ≤ 16 →
      slotAt (r.feed os).hist (r.wp + BitVec.ofNat 4 os.length - BitVec.ofNat 4 m) =
        os.reverse.getD (m - 1) (atLag r.hist (r.wp - 1) (m - 1 - os.length)) := fun m hm hm16 => by
    rw [← HistRing.feed_wp, ← atLag_sub_one _ _ hm, atLag_feed r os (show m - 1 < 16 by omega)]
  refine ⟨HistRing.feed_wp r os, fun m hm hn hm16 => ?_, fun m hn hm16 => ?_⟩
  · have hrev : os.reverse[m - 1]? = os[os.length - m]? := by
      rw [List.getElem?_reverse (by omega)]
      congr 1
      omega
    have hlt : os.length - m < os.length := by omega
    rw [hslot m hm hm16, List.getD_eq_getElem?_getD, hrev, List.getElem?_eq_getElem hlt, Option.getD_some]
  · have hpos : r.wp + BitVec.ofNat 4 os.length - BitVec.ofNat 4 m = r.wp - BitVec.ofNat 4 (m - os.length) := by
      obtain ⟨d, rfl⟩ := Nat.exists_eq_add_of_le hn.le
      rw [Nat.add_sub_cancel_left, BitVec.ofNat_add, BitVec.add_comm r.wp]
      exact add_sub_add_left_eq_sub r.wp _ _
    rw [hslot m (by omega) hm16, List.getD_eq_default _ _ (by simp; omega), hpos, Nat.sub_right_comm,
      atLag_sub_one _ _ (by omega)]

/-! ### One iteration (R110, R112, R113) -/

/-- Settles O15: the loop's test fails at once. -/
theorem translateOfNothing : Obligations.TranslateOfNothing := by
  intro s e src ss dst ds ord he hi
  have hnone : (accepted s.cfg.addrW 0 src ss ord dst ds).rem = 0 := Nat.zero_mod _
  calc exec (.translate 0 src ss ord dst ds) s
      = iterate s e (accepted s.cfg.addrW 0 src ss ord dst ds) := onIdle_of_idle _ he hi
    _ = .next (s.setEngine s.cur { e with flight := none }) := iterate_of_done hnone
    _ = .next s := by rw [← hi, State.setEngine_self he]

/-- An admitted iteration with no byte held. -/
theorem iterate_whole {s : State} {e : Engine} {f : Flight} (hh : s.hold = 0) (hr : f.rem ≠ 0)
    (hc : e.port.launch.canRead f.sp = true)
    (hw : ∀ k, k < sampleBytes → e.port.launch.canWrite (byteAddr s.cfg.addrW f.dp k) = true) :
    iterate s e f =
      .next { s with
        mem := s.mem.storeAll (storesOf s e f)
        engines := s.engines.set s.cur
          { ring := e.ring.push (s.mem.read f.sp)
            flight := if f.rem = 1 then none else some (f.advance s.cfg.addrW [])
            port := e.port } } := by
  rw [iterate_of_admitted hr hc (stores_canWrite_iff.mpr hw), iterated_of_no_hold e f hh, Flight.settle_advance hr]
  simp only [and_true]

/-- Settles O16. -/
theorem translateDoesItsFirstOctet : Obligations.TranslateDoesItsFirstOctet := by
  intro s e count src ss dst ds ord he hi hwf hcount hh hread hwrite aw o r w
  have hcells : sampleCells aw dst w =
      [(dst % 2 ^ aw, w.extractLsb' 0 8), ((dst + 1) % 2 ^ aw, w.extractLsb' 8 8),
        ((dst + 2) % 2 ^ aw, w.extractLsb' 16 8), ((dst + 3) % 2 ^ aw, w.extractLsb' 24 8)] := by
    simp only [sampleCells, byteAddr_eq]
    rfl
  rw [exec_translate_of_wf he hi hwf, iterate_whole hh hcount hread fun k hk => byteAddr_eq _ _ _ ▸ hwrite k hk,
    ← hcells]
  rfl

/-- Settles O17. -/
theorem inFlightDoesItsNextOctet : Obligations.InFlightDoesItsNextOctet := by
  intro s n ts e f hts he hf hout hr hread hwrite o r w
  rw [step_engine_turn hts, engineTurn_iterate he hf hout]
  obtain ⟨rem, sp, dp, ss, ds, ord, out⟩ := f
  obtain rfl : out = [] := hout
  exact iterate_whole rfl hr hread hwrite

/-! ### Runs one after another -/

/-- `k` steps more, from where a run has got to. -/
def runOn (o : Host.Outcome State Fault Refusal) (k : Nat) : Host.Outcome State Fault Refusal :=
  match o with
  | .next s => runSteps k s
  | .fault r => .fault r
  | .refused r => .refused r

@[simp] theorem runOn_next (s : State) (k : Nat) : runOn (.next s) k = runSteps k s := rfl

@[simp] theorem runOn_fault (r : Fault) (k : Nat) : runOn (.fault r) k = .fault r := rfl

@[simp] theorem runOn_refused (r : Refusal) (k : Nat) : runOn (.refused r) k = .refused r := rfl

@[simp] theorem runOn_zero (o : Host.Outcome State Fault Refusal) : runOn o 0 = o := by cases o <;> rfl

theorem runSteps_succ (k : Nat) (s : State) : runSteps (k + 1) s = runOn (step s) k := by
  cases h : step s <;> simp only [runSteps, h, runOn]

theorem runOn_one (s : State) : runOn (.next s) 1 = step s := by
  rw [runOn_next, runSteps_succ, runOn_zero]

/-- A run cut in two. -/
theorem runOn_add (o : Host.Outcome State Fault Refusal) (k m : Nat) : runOn o (k + m) = runOn (runOn o k) m := by
  induction k generalizing o with
  | zero => rw [Nat.zero_add, runOn_zero]
  | succ k ih =>
    cases o with
    | next s => rw [runOn_next, runOn_next, Nat.succ_add, runSteps_succ, runSteps_succ, ih]
    | fault r => rfl
    | refused r => rfl

theorem runSteps_add_eq_runOn (k m : Nat) (s : State) : runSteps (k + m) s = runOn (runSteps k s) m :=
  runOn_add (.next s) k m

/-! ### The first access outside the launch memory (R61, R164) -/

/-- What leaves instance `n` stuck at iteration `i`: the read, or else some byte of the sample. -/
def Job.stuckAt (aw n : Nat) (l : Launch) (j : Job) (i : Nat) : Option Fault :=
  if l.canRead (srcAddr aw j.src j.sstride i) = false then some (.stuckRead n (srcAddr aw j.src j.sstride i))
  else if ∃ k, k < sampleBytes ∧ l.canWrite (j.outAddr aw i k) = false then
    some (.stuckWrite n (dstAddr aw j.dst j.dstride i))
  else none

/-- What leaves instance `n` stuck in the first `i` iterations. -/
def Job.firstStuck (aw n : Nat) (l : Launch) (j : Job) : Nat → Option Fault
  | 0 => none
  | i + 1 => (j.firstStuck aw n l i).or (j.stuckAt aw n l i)

section Stuck
variable {aw n : Nat} {l : Launch} {j : Job} {i : Nat}

theorem Job.stuckAt_of_read (hr : l.canRead (srcAddr aw j.src j.sstride i) = false) :
    j.stuckAt aw n l i = some (.stuckRead n (srcAddr aw j.src j.sstride i)) := if_pos hr

theorem Job.stuckAt_of_write (hr : l.canRead (srcAddr aw j.src j.sstride i) = true)
    (hw : ∃ k, k < sampleBytes ∧ l.canWrite (j.outAddr aw i k) = false) :
    j.stuckAt aw n l i = some (.stuckWrite n (dstAddr aw j.dst j.dstride i)) := by
  rw [Job.stuckAt, if_neg (by simp [hr]), if_pos hw]

theorem Job.stuckAt_of_admitted (h : j.AdmittedAt aw l i) : j.stuckAt aw n l i = none := by
  obtain ⟨hr, hw⟩ := h
  rw [Job.stuckAt, if_neg (by simp [hr]), if_neg]
  rintro ⟨k, hk, hno⟩
  simp [hw k hk] at hno

theorem Job.firstStuck_of_admitted (h : ∀ m, m < i → j.AdmittedAt aw l m) : j.firstStuck aw n l i = none := by
  induction i with
  | zero => rfl
  | succ i ih =>
    rw [Job.firstStuck, ih fun m hm => h m (by omega), Job.stuckAt_of_admitted (h i (by omega)), Option.or_none]

/-- Once stuck, the instance stays so. -/
theorem Job.firstStuck_of_stuckAt {k : Nat} {r : Fault} (hik : i < k) (h : ∀ m, m < i → j.AdmittedAt aw l m)
    (hr : j.stuckAt aw n l i = some r) : j.firstStuck aw n l k = some r := by
  induction k, hik using Nat.le_induction with
  | base => rw [Job.firstStuck, Job.firstStuck_of_admitted h, hr, Option.none_or]
  | succ k _ ih => rw [Job.firstStuck, ih, Option.some_or]

end Stuck

/-! ### The turns of a whole TRANSLATE (R9, R110) -/

/-- The in-flight registers after `i` iterations: none after the last. -/
def Job.flight (aw : Nat) (j : Job) (i : Nat) : Option Flight := if i = j.count then none else some (j.registers aw i)

/-- Instance `e` of `s`, its packet taken, after `i` iterations of `j`, with in-flight registers `f`. -/
def Engine.during (e : Engine) (s : State) (j : Job) (i : Nat) (f : Option Flight) : Engine where
  ring := (j.after s.cfg i (e.ring, s.mem)).1
  flight := f
  port := { words := [], launch := e.port.launch }

/-- `s` after `i` iterations of `j` by its instance `n`, which is `e`, with no byte held; `ts` are the turns left. -/
def State.during (s : State) (n : Nat) (e : Engine) (j : Job) (i : Nat) (f : Option Flight) (ts : List Turn) : State :=
  State.setEngine { s with mem := (j.after s.cfg i (e.ring, s.mem)).2, turns := ts, cur := n, hold := 0 } n
    (e.during s j i f)

/-- The outcome of the first `i` iterations of `j`. -/
def State.outcome (s : State) (n : Nat) (e : Engine) (j : Job) (i : Nat) (ts : List Turn) :
    Host.Outcome State Fault Refusal :=
  (j.firstStuck s.cfg.addrW n e.port.launch i).elim
    (.next (s.during n e j i (j.flight s.cfg.addrW i) ts)) .fault

theorem Job.flight_count (aw : Nat) (j : Job) : j.flight aw j.count = none := if_pos rfl

section Turns
variable {s : State} {n i k : Nat} {d e : Engine} {j : Job} {f : Option Flight} {ts : List Turn} {r : Fault}

theorem State.outcome_of_not_stuck (h : j.firstStuck s.cfg.addrW n e.port.launch i = none) :
    s.outcome n e j i ts = .next (s.during n e j i (j.flight s.cfg.addrW i) ts) := by
  rw [State.outcome, h, Option.elim_none]

theorem State.outcome_of_stuck (h : j.firstStuck s.cfg.addrW n e.port.launch i = some r) :
    s.outcome n e j i ts = .fault r := by
  rw [State.outcome, h, Option.elim_some]

theorem State.during_lookup (hd : s.engines[n]? = some d) :
    (s.during n e j i f ts).engines[n]? = some (e.during s j i f) :=
  State.setEngine_lookup_same hd

/-- Iteration `i` after the first `i`, whatever the instance's registers. -/
theorem iterate_during {g : Option Flight} (hi : i < j.count)
    (hs : j.firstStuck s.cfg.addrW n e.port.launch i = none) :
    iterate (s.during n e j i f ts) (e.during s j i g) (j.registers s.cfg.addrW i) = s.outcome n e j (i + 1) ts := by
  have hnext : j.firstStuck s.cfg.addrW n e.port.launch (i + 1) = j.stuckAt s.cfg.addrW n e.port.launch i := by
    rw [Job.firstStuck, hs, Option.none_or]
  have hrem : (j.registers s.cfg.addrW i).rem ≠ 0 := Nat.sub_ne_zero_of_lt hi
  cases hr : e.port.launch.canRead (srcAddr s.cfg.addrW j.src j.sstride i) with
  | false =>
    rw [State.outcome_of_stuck (hnext.trans (Job.stuckAt_of_read hr))]
    exact iterate_stuckRead hrem hr
  | true =>
    by_cases hw : ∃ k, k < sampleBytes ∧ e.port.launch.canWrite (j.outAddr s.cfg.addrW i k) = false
    · rw [State.outcome_of_stuck (hnext.trans (Job.stuckAt_of_write hr hw))]
      obtain ⟨k, hk, hno⟩ := hw
      exact iterate_stuckWrite hrem hr hk hno
    · have hadm : ∀ k, k < sampleBytes → e.port.launch.canWrite (j.outAddr s.cfg.addrW i k) = true := by
        simpa using hw
      rw [State.outcome_of_not_stuck (hnext.trans (Job.stuckAt_of_admitted ⟨hr, hadm⟩))]
      refine (iterate_registers (s := s.during n e j i f ts) (e := e.during s j i g) hi rfl hr hadm).trans ?_
      simp only [State.during, State.setEngine, List.set_set]
      rfl

/-- A turn of the instance does the next iteration, if there is one left. -/
theorem runOn_outcome_turn (hd : s.engines[n]? = some d) (hi : i ≤ j.count) :
    runOn (s.outcome n e j i (.engine n 0 :: ts)) 1 = s.outcome n e j (min (i + 1) j.count) ts := by
  cases hs : j.firstStuck s.cfg.addrW n e.port.launch i with
  | some r =>
    have hmin : j.firstStuck s.cfg.addrW n e.port.launch (min (i + 1) j.count) = some r := by
      rcases Nat.eq_or_lt_of_le hi with rfl | hlt
      · rwa [Nat.min_eq_right (Nat.le_succ _)]
      · rw [Nat.min_eq_left hlt, Job.firstStuck, hs, Option.some_or]
    rw [State.outcome_of_stuck hs, State.outcome_of_stuck hmin, runOn_fault]
  | none =>
    have hstep : step (s.during n e j i (j.flight s.cfg.addrW i) (.engine n 0 :: ts)) =
        engineTurn (s.during n e j i (j.flight s.cfg.addrW i) ts) := step_engine_turn rfl
    rw [State.outcome_of_not_stuck hs, runOn_one, hstep]
    rcases Nat.eq_or_lt_of_le hi with rfl | hlt
    · rw [Nat.min_eq_right (Nat.le_succ _), State.outcome_of_not_stuck hs]
      exact engineTurn_idle (State.during_lookup hd) (Job.flight_count _ _) rfl
    · have hf : (e.during s j i (j.flight s.cfg.addrW i)).flight = some (j.registers s.cfg.addrW i) := if_neg hlt.ne
      rw [Nat.min_eq_left hlt]
      exact (engineTurn_iterate (State.during_lookup hd) hf rfl).trans (iterate_during hlt hs)

/-- Turns of the instance do the next iterations, as many as are left. -/
theorem runOn_outcome (hd : s.engines[n]? = some d) (hi : i ≤ j.count) :
    runOn (s.outcome n e j i (List.replicate k (.engine n 0) ++ ts)) k = s.outcome n e j (min (i + k) j.count) ts := by
  induction k generalizing i with
  | zero => rw [runOn_zero, Nat.add_zero, Nat.min_eq_left hi]; rfl
  | succ k ih =>
    have hmin : min (min (i + 1) j.count + k) j.count = min (i + (k + 1)) j.count := by omega
    rw [Nat.add_comm, runOn_add, Nat.add_comm, List.replicate_succ, List.cons_append, runOn_outcome_turn hd hi,
      ih (Nat.min_le_right _ _), hmin]

/-- The turn that accepts the TRANSLATE does its first iteration, if it has any. -/
theorem step_accept_outcome (he : s.engines[n]? = some e) (hi : e.flight = none)
    (hwf : j.instr.wf s.cfg.addrW = true) (hp : e.port.words = encode j.instr) (hts : s.turns = .engine n 0 :: ts) :
    step s = s.outcome n e j (min 1 j.count) ts := by
  have hd : decode s.cfg.addrW e.port.words = .ok j.instr [] := by
    rw [hp, ← List.append_nil (encode j.instr)]
    exact decodeOfEncode _ _ _ hwf
  have htaken : { e with port := { e.port with words := [] } } = e.during s j 0 none := by rw [← hi]; rfl
  have hstep : step s = iterate (s.during n e j 0 none ts) (e.during s j 0 none) (j.registers s.cfg.addrW 0) := by
    rw [step_engine_turn hts, engineTurn_accept (s := { s with turns := ts, cur := n, hold := 0 }) he hi hd,
      State.takePacket, htaken, ← accepted_eq_registers hwf]
    exact onIdle_of_idle _ (State.during_lookup he) rfl
  rw [hstep]
  rcases Nat.eq_zero_or_pos j.count with h0 | hpos
  · rw [iterate_of_done h0, h0, Nat.min_zero, State.outcome_of_not_stuck rfl, ← h0, Job.flight_count]
    exact congrArg _ (State.setEngine_self (State.during_lookup he))
  · rw [Nat.min_eq_left hpos]
    exact iterate_during hpos rfl

/-- Turns of an instance with a TRANSLATE on its port do that many of its iterations, or all of them. -/
theorem runSteps_translate (he : s.engines[n]? = some e) (hi : e.flight = none)
    (hwf : j.instr.wf s.cfg.addrW = true) (hp : e.port.words = encode j.instr) (hk : 1 ≤ k)
    (hts : s.turns = List.replicate k (.engine n 0) ++ ts) :
    runSteps k s = s.outcome n e j (min k j.count) ts := by
  obtain ⟨k, rfl⟩ := Nat.exists_eq_add_of_le' hk
  have hmin : min (min 1 j.count + k) j.count = min (k + 1) j.count := by omega
  rw [List.replicate_succ, List.cons_append] at hts
  rw [runSteps_succ, step_accept_outcome he hi hwf hp hts, runOn_outcome he (Nat.min_le_right _ _), hmin]

end Turns

/-- Settles O26: no iteration is stuck. -/
theorem translateRunsToCompletion : Obligations.TranslateRunsToCompletion := by
  intro s n e j ts he hi hwf hcount hp hadm hts
  rw [runSteps_translate he hi hwf hp hcount hts, Nat.min_self,
    State.outcome_of_not_stuck (Job.firstStuck_of_admitted hadm), Job.flight_count]
  rfl

/-- Settles O28: the iterations before the first that is stuck are admitted. -/
theorem translateEnds : Obligations.TranslateEnds := by
  intro s n e j ts he hi hwf hcount hp hts aw l
  refine ⟨fun hadm => ?_, fun i hic hbefore => ?_⟩
  · exact ⟨_, _, translateRunsToCompletion s n e j ts he hi hwf hcount hp hadm hts, rfl,
      State.setEngine_lookup_same he, rfl, rfl⟩
  · have hfault : ∀ {r}, j.stuckAt aw n l i = some r → runSteps j.count s = .fault r := fun hr => by
      rw [runSteps_translate he hi hwf hp hcount hts, Nat.min_self,
        State.outcome_of_stuck (Job.firstStuck_of_stuckAt hic hbefore hr)]
    exact ⟨fun hr => hfault (Job.stuckAt_of_read hr), fun hr hw => hfault (Job.stuckAt_of_write hr hw)⟩

/-! ### One TRANSLATE as two (R114) -/

/-- The first `a` octets of a TRANSLATE. -/
def Job.upTo (j : Job) (a : Nat) : Job := { j with count := a }

/-- The octets of a TRANSLATE after the first `a`, from the addresses reached. -/
def Job.beyond (aw : Nat) (j : Job) (a : Nat) : Job :=
  { j with count := j.count - a, src := srcAddr aw j.src j.sstride a, dst := dstAddr aw j.dst j.dstride a }

section Split
variable {aw n : Nat} {l : Launch} {j : Job} {a : Nat}

theorem Job.upTo_wf (h : j.instr.wf aw = true) (ha : a ≤ j.count) : (j.upTo a).instr.wf aw = true := by
  obtain ⟨hcount, hsrc, hss, hdst, hds⟩ := translate_wf h
  simp [Job.upTo, Job.instr, Instr.wf, lt_of_le_of_lt ha hcount, hsrc, hss, hdst, hds]

theorem Job.beyond_wf (h : j.instr.wf aw = true) : (j.beyond aw a).instr.wf aw = true := by
  obtain ⟨hcount, -, hss, -, hds⟩ := translate_wf h
  simp [Job.beyond, Job.instr, Instr.wf, lt_of_le_of_lt (Nat.sub_le _ a) hcount, srcAddr_lt, hss, dstAddr_lt, hds]

/-- The iterations do not look at the count. -/
theorem Job.after_upTo (c : Config) (i : Nat) (x : HistRing × Memory) : (j.upTo a).after c i x = j.after c i x := by
  induction i with
  | zero => rfl
  | succ i ih => simp only [Job.after, ih]; rfl

/-- The iterations of the second part go on where the first part's end. -/
theorem Job.after_beyond (c : Config) (i : Nat) (x : HistRing × Memory) :
    (j.beyond c.addrW a).after c i (j.after c a x) = j.after c (a + i) x := by
  induction i with
  | zero => rfl
  | succ i ih =>
    rw [← Nat.add_assoc]
    simp only [Job.after, ih]
    simp only [Job.beyond, srcAddr_from, dstAddr_from]

theorem Job.firstStuck_upTo (i : Nat) : (j.upTo a).firstStuck aw n l i = j.firstStuck aw n l i := by
  induction i with
  | zero => rfl
  | succ i ih => simp only [Job.firstStuck, ih]; rfl

theorem Job.stuckAt_beyond (i : Nat) : (j.beyond aw a).stuckAt aw n l i = j.stuckAt aw n l (a + i) := by
  simp only [Job.stuckAt, Job.outAddr, Job.beyond, srcAddr_from, dstAddr_from]
  rfl

/-- What is first stuck is so in the first part or, if nothing there is, in the second. -/
theorem Job.firstStuck_add (i : Nat) :
    j.firstStuck aw n l (a + i) = (j.firstStuck aw n l a).or ((j.beyond aw a).firstStuck aw n l i) := by
  induction i with
  | zero => simp [Job.firstStuck]
  | succ i ih => rw [← Nat.add_assoc, Job.firstStuck, ih, Job.firstStuck, Job.stuckAt_beyond, Option.or_assoc]

end Split

/-- The machine with these acts left for the host. -/
def State.withHost (s : State) (acts : List HostAct) : State := { s with host := acts }

/-- The instance with this launch memory declared. -/
def Engine.withLaunch (e : Engine) (l : Launch) : Engine := { e with port := { e.port with launch := l } }

section Chunks
variable {s : State} {n a i k : Nat} {d e : Engine} {j : Job} {l : Launch} {acts : List HostAct} {ts us : List Turn}

/-- A turn of the host with nothing left to do. -/
theorem runOn_outcome_host (hh : s.host = []) :
    runOn (s.outcome n e j i (.host :: ts)) 1 = s.outcome n e j i ts := by
  cases hs : j.firstStuck s.cfg.addrW n e.port.launch i with
  | some r => rw [State.outcome_of_stuck hs, State.outcome_of_stuck hs, runOn_fault]
  | none =>
    have hstep : step (s.during n e j i (j.flight s.cfg.addrW i) (.host :: ts)) =
        hostTurn (s.during n e j i (j.flight s.cfg.addrW i) ts) := step_host_turn rfl
    have hnone : (s.during n e j i (j.flight s.cfg.addrW i) ts).host = [] := hh
    rw [State.outcome_of_not_stuck hs, State.outcome_of_not_stuck hs, runOn_one, hstep, hostTurn, hnone]

/-- The host issues a TRANSLATE to a free instance, which then takes turns. -/
theorem runSteps_issue (he : s.engines[n]? = some e) (hi : e.flight = none) (hp : e.port.words = [])
    (hwf : j.instr.wf s.cfg.addrW = true) (hh : s.host = .issue n (encode j.instr) l :: acts) (hk : 1 ≤ k)
    (hmin : min k j.count = i) (hts : s.turns = .host :: (List.replicate k (.engine n 0) ++ ts)) :
    runSteps (1 + k) s = (s.withHost acts).outcome n (e.withLaunch l) j i ts := by
  have hissue := hostTurn_issue_delivers (s := { s with turns := List.replicate k (.engine n 0) ++ ts }) hh he
    (Engine.free_iff.mpr ⟨hi, hp⟩) (encodedWordsAreOnePacket j.instr).1
  have hgiven := State.setEngine_lookup_same
    (s := { s with host := acts, turns := List.replicate k (.engine n 0) ++ ts })
    (e := { e with port := { words := encode j.instr, launch := l } }) he
  rw [Nat.add_comm, runSteps_succ, step_host_turn hts, hissue, runOn_next]
  refine (runSteps_translate hgiven hi hwf rfl hk rfl).trans ?_
  rw [hmin]
  simp only [State.outcome, State.during, State.setEngine, List.set_set]
  rfl

/-- After the first part, `i` iterations of the second are the first `a + i` of the whole. -/
theorem State.during_beyond (f g : Option Flight) :
    ((s.during n e (j.upTo a) a f us).withHost acts).during n (e.during s (j.upTo a) a f) (j.beyond s.cfg.addrW a) i g
        ts =
      (s.withHost acts).during n e j (a + i) g ts := by
  have hafter : (j.beyond s.cfg.addrW a).after s.cfg i ((j.upTo a).after s.cfg a (e.ring, s.mem)) =
      j.after s.cfg (a + i) (e.ring, s.mem) := by
    rw [Job.after_upTo, Job.after_beyond]
  simp only [State.during, Engine.during, State.withHost, State.setEngine, List.set_set, ← hafter]

/-- After a first part none of which was stuck, the outcome of the second is the outcome of the whole. -/
theorem State.outcome_beyond (ha : a ≤ j.count) (hs : j.firstStuck s.cfg.addrW n e.port.launch a = none) :
    ((s.during n e (j.upTo a) a none us).withHost acts).outcome n (e.during s (j.upTo a) a none)
        (j.beyond s.cfg.addrW a) (j.count - a) ts =
      (s.withHost acts).outcome n e j j.count ts := by
  have hcount : a + (j.count - a) = j.count := Nat.add_sub_cancel' ha
  have hstuck : j.firstStuck s.cfg.addrW n e.port.launch j.count =
      (j.beyond s.cfg.addrW a).firstStuck s.cfg.addrW n e.port.launch (j.count - a) := by
    rw [← hcount, Job.firstStuck_add, hs, Option.none_or, hcount]
  cases hr : j.firstStuck s.cfg.addrW n e.port.launch j.count with
  | some r =>
    have hwhole : (s.withHost acts).outcome n e j j.count ts = .fault r := State.outcome_of_stuck hr
    exact (State.outcome_of_stuck (hstuck ▸ hr)).trans hwhole.symm
  | none =>
    have hwhole : (s.withHost acts).outcome n e j j.count ts = .next ((s.withHost acts).during n e j j.count none ts) :=
      Job.flight_count s.cfg.addrW j ▸ State.outcome_of_not_stuck hr
    rw [hwhole, ← hcount, ← State.during_beyond (us := us) none none, hcount]
    exact Job.flight_count s.cfg.addrW (j.beyond s.cfg.addrW a) ▸ State.outcome_of_not_stuck (hstuck ▸ hr)

/-- The first part, and then the second part issued and given its turns, have the outcome of the whole. -/
theorem runOn_outcome_beyond (hd : s.engines[n]? = some d) (hwf : j.instr.wf s.cfg.addrW = true) (ha : a ≤ j.count)
    (hh : s.host = .issue n (encode (j.beyond s.cfg.addrW a).instr) e.port.launch :: acts) :
    runOn (s.outcome n e (j.upTo a) a (.host :: (List.replicate (j.count - a + 1) (.engine n 0) ++ ts)))
        (1 + (j.count - a + 1)) =
      (s.withHost acts).outcome n e j j.count ts := by
  cases hs : j.firstStuck s.cfg.addrW n e.port.launch a with
  | some r =>
    have hwhole : j.firstStuck s.cfg.addrW n e.port.launch j.count = some r := by
      rw [← Nat.add_sub_cancel' ha, Job.firstStuck_add, hs, Option.some_or]
    rw [State.outcome_of_stuck ((Job.firstStuck_upTo a).trans hs), runOn_fault]
    exact (State.outcome_of_stuck (s := s.withHost acts) hwhole).symm
  | none =>
    have hdone : (j.upTo a).flight s.cfg.addrW a = none := Job.flight_count _ (j.upTo a)
    rw [State.outcome_of_not_stuck ((Job.firstStuck_upTo a).trans hs), runOn_next, hdone]
    have hmin : min (j.count - a + 1) (j.beyond s.cfg.addrW a).count = j.count - a := Nat.min_eq_right (Nat.le_succ _)
    exact (runSteps_issue (State.during_lookup hd) rfl rfl (Job.beyond_wf hwf) hh (Nat.le_add_left 1 _) hmin rfl).trans
      (State.outcome_beyond ha hs)

end Chunks

/-- Settles O29: the two parts' iterations are those of the whole, and turns with nothing to do change nothing. -/
theorem chunkingInvariance : Obligations.ChunkingInvariance := by
  intro s n a e j l he hi hp hwf ha first second given
  have hlen : j.count + 4 = 1 + (a + 1) + (1 + (j.count - a + 1)) := by omega
  have hwhole : runSteps (j.count + 4) (given [.issue n (encode j.instr) l]) =
      (given []).outcome n (e.withLaunch l) j j.count [] := by
    have hmin : min (min (a + 1) j.count + (j.count - a + 1)) j.count = j.count := by omega
    have hissue := runSteps_issue (s := given [.issue n (encode j.instr) l]) he hi hp hwf rfl (Nat.le_add_left 1 a) rfl
      rfl
    have hturns := runOn_outcome (s := given []) (k := j.count - a + 1) (e := e.withLaunch l) (ts := []) he
      (Nat.min_le_right (a + 1) j.count)
    rw [hmin, List.append_nil] at hturns
    rw [hlen, runSteps_add_eq_runOn, hissue, runOn_add, runOn_outcome_host rfl]
    exact hturns
  have hparts : runSteps (j.count + 4) (given [.issue n (encode first.instr) l, .issue n (encode second.instr) l]) =
      (given []).outcome n (e.withLaunch l) j j.count [] := by
    have hissue := runSteps_issue (s := given [.issue n (encode first.instr) l, .issue n (encode second.instr) l])
      he hi hp (Job.upTo_wf hwf ha) rfl (Nat.le_add_left 1 a) (Nat.min_eq_right (Nat.le_succ a)) rfl
    rw [hlen, runSteps_add_eq_runOn, hissue, ← List.append_nil (List.replicate (_ - _ + 1) _)]
    exact runOn_outcome_beyond (e := e.withLaunch l) he hwf ha rfl
  exact hwhole.trans hparts.symm

/-! ### What a TRANSLATE leaves, on a clean layout (R115, R176) -/

section Clean
variable {c : Config} {j : Job} {x : HistRing × Memory} {i m : Nat}

/-- The word iteration `i` stores. -/
def Job.word (c : Config) (j : Job) (x : HistRing × Memory) (i : Nat) : BitVec 32 :=
  i2f c.frac
    ((j.after c i x).1.acc c ((j.after c i x).2.read (srcAddr c.addrW j.src j.sstride i)) j.ord)

theorem Job.after_succ_ring :
    (j.after c (i + 1) x).1 = (j.after c i x).1.push ((j.after c i x).2.read (srcAddr c.addrW j.src j.sstride i)) := rfl

theorem Job.after_succ_mem :
    (j.after c (i + 1) x).2 =
      (j.after c i x).2.storeAll (sampleCells c.addrW (dstAddr c.addrW j.dst j.dstride i) (j.word c x i)) := rfl

theorem Job.after_wf (hx : x.2.Wf) : (j.after c i x).2.Wf := by
  induction i with
  | zero => exact hx
  | succ i ih => exact Memory.storeAll_wf _ ih

/-- A byte of none of the first samples is as before. -/
theorem Job.after_read_other {a : Nat} (ha : ∀ m, m < i → ∀ k, k < sampleBytes → a ≠ j.outAddr c.addrW m k) :
    (j.after c i x).2.read a = x.2.read a := by
  induction i with
  | zero => rfl
  | succ i ih =>
    rw [Job.after_succ_mem, Memory.read_storeAll_of_ne_byteAddr (fun c hc => hc) (ha i (Nat.lt_succ_self i)),
      ih fun m hm => ha m (Nat.lt_succ_of_lt hm)]

theorem Job.octets_length (aw : Nat) (m : Memory) : (j.octets aw m).length = j.count := by simp [Job.octets]

theorem Job.octets_getElem {aw : Nat} {m : Memory} (hi : i < j.count) :
    (j.octets aw m)[i]? = some (m.read (srcAddr aw j.src j.sstride i)) := by
  simp [Job.octets, hi]

variable (hj : j.Clean c.addrW)
include hj

/-- No sample byte is a source byte, so each octet is read as it stood before the command. -/
theorem Job.after_read_src (hi : i ≤ j.count) (hm : m < j.count) :
    (j.after c i x).2.read (srcAddr c.addrW j.src j.sstride m) = x.2.read (srcAddr c.addrW j.src j.sstride m) :=
  Job.after_read_other fun p hp k hk => (hj.1 p (lt_of_lt_of_le hp hi) k hk m hm).symm

theorem Job.after_ring (hi : i ≤ j.count) :
    (j.after c i x).1 = x.1.feed ((j.octets c.addrW x.2).take i) := by
  induction i with
  | zero => rfl
  | succ i ih =>
    rw [Job.after_succ_ring, Job.after_read_src hj (Nat.le_of_succ_le hi) hi, ih (Nat.le_of_succ_le hi),
      List.take_add_one, Job.octets_getElem hi, HistRing.feed_append]
    rfl

/-- The ring of a whole TRANSLATE. -/
theorem Job.after_count_ring : (j.after c j.count x).1 = x.1.feed (j.octets c.addrW x.2) := by
  rw [Job.after_ring hj le_rfl, List.take_of_length_le (Job.octets_length _ _).le]

/-- The word of sample `i` is the image of accumulator `i`. -/
theorem Job.word_of_accs {a : Int} (ha : (HistRing.accs c j.ord x.1 (j.octets c.addrW x.2))[i]? = some a) :
    j.word c x i = i2f c.frac a := by
  have hi : i < j.count := by
    have hlen := (List.getElem?_eq_some_iff.mp ha).1
    rwa [HistRing.accs_length, Job.octets_length] at hlen
  rw [HistRing.accs_getElem, Job.octets_getElem hi] at ha
  rw [← Option.some.inj ha, Job.word, Job.after_ring hj hi.le, Job.after_read_src hj hi.le hi]

/-- No two samples share a byte, so each sample is read as it was stored. -/
theorem Job.after_read_out (hx : x.2.Wf) (hmi : m < i) (hi : i ≤ j.count) {k : Nat} (hk : k < sampleBytes) :
    (j.after c i x).2.read (j.outAddr c.addrW m k) = sampleByte (j.word c x m) k := by
  induction i, hmi using Nat.le_induction with
  | base =>
    have hnodup : ((sampleCells c.addrW (dstAddr c.addrW j.dst j.dstride m) (j.word c x m)).map (·.1)).Nodup := by
      rw [sampleCells, List.map_map, List.nodup_map_iff_inj_on List.nodup_range]
      intro p hp q hq hpq
      exact (hj.2 m hi p (List.mem_range.mp hp) m hi q (List.mem_range.mp hq) hpq).2
    exact Memory.read_storeAll_same (c := (j.outAddr c.addrW m k, sampleByte (j.word c x m) k)) (Job.after_wf hx) hnodup
      (mem_sampleCells.mpr ⟨k, hk, rfl⟩)
  | succ i hmi ih =>
    have hother : ∀ q, q < sampleBytes → j.outAddr c.addrW m k ≠ j.outAddr c.addrW i q := fun q hq heq =>
      (Nat.ne_of_lt hmi) (hj.2 m (lt_trans hmi hi) k hk i hi q hq heq).1
    rw [Job.after_succ_mem, Memory.read_storeAll_of_ne_byteAddr (fun c hc => hc) hother, ih (Nat.le_of_succ_le hi)]

end Clean

/-- Settles O30: ring and words are functions of the ring before, the octets and the bit order. -/
theorem strideCorrectness : Obligations.StrideCorrectness := by
  intro s u n m e d j k hcfg he hd hei hdi hring hs hu hjwf hkwf hcount hkcount hord hep hdp hjadm hkadm hj hk hts hus
    hoctets
  rw [← hcfg] at hkwf hkadm hk
  rw [← hkcount, ← List.append_nil (List.replicate _ _)] at hus
  have hrun := translateRunsToCompletion s n e j [] he hei hjwf hcount hep hjadm (by rw [hts, List.append_nil])
  have hrun' := translateRunsToCompletion u m d k [] hd hdi hkwf (hkcount ▸ hcount) hdp hkadm hus
  have hsame : k.octets u.cfg.addrW u.mem = j.octets s.cfg.addrW s.mem := by rw [hcfg, hoctets]
  refine ⟨_, _, _, _, hrun, (congrArg (runSteps · u) hkcount.symm).trans hrun', State.setEngine_lookup_same he,
    State.setEngine_lookup_same hd, ?_, ?_⟩
  · show (j.after s.cfg j.count (e.ring, s.mem)).1 = (k.after u.cfg k.count (d.ring, u.mem)).1
    rw [Job.after_count_ring hj, Job.after_count_ring hk, hsame, hring]
  · intro i hi b hb
    have haccs : HistRing.accs u.cfg k.ord d.ring (k.octets u.cfg.addrW u.mem) =
        HistRing.accs s.cfg j.ord e.ring (j.octets s.cfg.addrW s.mem) := by rw [hsame, hcfg, hord, hring]
    obtain ⟨a, ha⟩ : ∃ a, (HistRing.accs s.cfg j.ord e.ring (j.octets s.cfg.addrW s.mem))[i]? = some a :=
      ⟨_, List.getElem?_eq_getElem (by rwa [HistRing.accs_length, Job.octets_length])⟩
    calc (j.after s.cfg j.count (e.ring, s.mem)).2.read (j.outAddr s.cfg.addrW i b)
        = sampleByte (j.word s.cfg (e.ring, s.mem) i) b := Job.after_read_out hj hs hi le_rfl hb
      _ = sampleByte (k.word u.cfg (d.ring, u.mem) i) b := by
          rw [Job.word_of_accs hj ha, Job.word_of_accs hk (haccs ▸ ha), hcfg]
      _ = (k.after u.cfg k.count (d.ring, u.mem)).2.read (k.outAddr s.cfg.addrW i b) := by
          rw [← hcfg, Job.after_read_out hk hu (hkcount ▸ hi) le_rfl hb]

end Sys2Proof.Machine
end

section
/-! The output sample (spec/42_calc_output_sample.md): the bit order, the table sum as a filter and its bounds, the laws of
the sequence of accumulators, and the conversion of the sum to a sample word. -/

namespace Sys2Proof.Machine

/-! ### The bit order (R131, R132) -/

theorem getLsbD_rev8 (v : Octet) {j : Nat} (hj : j < 8) : (rev8 v).getLsbD j = v.getLsbD (7 - j) := by
  rw [rev8, BitVec.getLsbD_reverse, BitVec.getMsbD_eq_getLsbD, decide_eq_true hj, Bool.true_and]

@[simp] theorem rev8_rev8 (v : Octet) : rev8 (rev8 v) = v := BitVec.reverse_reverse_eq

/-- An octet and its complement are complements in either bit order. -/
theorem idx_complement (v : Octet) (ord : BitOrder) : idx (v ^^^ 0xFF) ord = idx v ord ^^^ 0xFF := by
  cases ord with
  | msbf => rfl
  | lsbf =>
    have hones : ∀ j < 8, (0xFF : Octet).getLsbD j = true := by decide
    refine BitVec.eq_of_getLsbD_eq fun j hj => ?_
    rw [BitVec.getLsbD_xor, idx, idx, getLsbD_rev8 _ hj, getLsbD_rev8 _ hj, BitVec.getLsbD_xor, hones j hj,
      hones (7 - j) (by omega)]

/-- The weighted bits of a pattern add up to it. -/
theorem toNat_eq_sumTo_bits {w : Nat} (x : BitVec w) :
    (x.toNat : Int) = sumTo w fun j => if x.getLsbD j then 2 ^ j else 0 := by
  have hlow : ∀ n, ((x.toNat % 2 ^ n : Nat) : Int) = sumTo n fun j => if x.getLsbD j then 2 ^ j else 0 := by
    intro n
    induction n with
    | zero => simp [sumTo, Nat.mod_one]
    | succ n ih =>
      rw [Nat.mod_pow_succ, ← Nat.toNat_testBit, Nat.cast_add, ih, sumTo, ← BitVec.getLsbD]
      cases x.getLsbD n <;> simp
  rw [← hlow, Nat.mod_eq_of_lt x.isLt]

/-- Settles O31: the sum is that of the reversed pattern's own bits, taken from the top. -/
theorem rev8ReversesTheBits : Obligations.Rev8ReversesTheBits := by
  refine ⟨fun v => ⟨fun j hj => getLsbD_rev8 v hj, rev8_rev8 v, ?_⟩, by decide, by decide⟩
  rw [toNat_eq_sumTo_bits, sumTo_eq_sum_range, sumTo_eq_sum_range, ← Finset.sum_range_reflect]
  refine Finset.sum_congr rfl fun j hj => ?_
  have hj8 : j < 8 := Finset.mem_range.mp hj
  rw [getLsbD_rev8 v (by omega), show 7 - (8 - 1 - j) = j by omega]

/-! ### The sum (R133, R134, R136) -/

theorem abs_ctab_le {c : Config} (hc : c.Wf) (k : Nat) (v : Octet) : |ctab c k v| ≤ 2 ^ (c.tw + 2) :=
  (abs_ctab_le_row c k v).trans (row_abs_le k hc)

/-- At most 16 table entries, whichever columns they are from, are within `2^(TW+6)`. -/
theorem abs_sumTo_ctab_le {c : Config} (hc : c.Wf) {n : Nat} (hn : n ≤ nLag) (v : Nat → Octet) :
    |sumTo n fun k => ctab c k (v k)| ≤ 2 ^ (c.tw + 6) :=
  calc |sumTo n fun k => ctab c k (v k)|
      ≤ n * 2 ^ (c.tw + 2) := sumTo_abs_le fun k _ => abs_ctab_le hc k (v k)
    _ ≤ 16 * 2 ^ (c.tw + 2) := mul_le_mul_of_nonneg_right (by exact_mod_cast hn) (by positivity)
    _ = 2 ^ (c.tw + 6) := by ring

/-- Settles O33: each of the at most 16 entries is within `2^(TW+2)`. -/
theorem accumulatorNeverOverflows : Obligations.AccumulatorNeverOverflows := by
  intro c h j ord n hc hn
  have hacc := abs_sumTo_ctab_le hc hn fun k => idx (atLag h j k) ord
  have hwidth : (2 : Int) ^ (c.tw + 6) < 2 ^ (c.aw - 1) := pow_lt_pow_right₀ (by norm_num) (by unfold Config.aw; omega)
  have hdomain : (2 : Int) ^ (c.tw + 6) ≤ 2 ^ 24 := by
    obtain ⟨-, -, htw, -⟩ := hc
    exact pow_le_pow_right₀ (by norm_num) (by omega)
  obtain ⟨hlow, hhigh⟩ := abs_le.mp hacc
  exact ⟨hacc, ⟨by omega, hhigh.trans_lt hwidth⟩, (abs_sumTo_ctab_le hc le_rfl _).trans hdomain⟩

/-- A sum over the taps is a sum over the lags of sums over a row. -/
theorem sumTo_nTaps (f : Nat → Int) : sumTo nTaps f = sumTo nLag fun k => sumTo octetBits fun j => f (octetBits * k + j) :=
  sumTo_mul octetBits nLag f

/-- The table sum with its entries written out: the tap of age `n` meets bit `n mod 8` of the column of lag `n div 8`. -/
theorem calcSum_eq_sumTo_taps (c : Config) (h : Vector Octet histCap) (j : RingPos) (ord : BitOrder) :
    calcSum c h j ord =
      sumTo nTaps fun n => tapAt c n * sgn ((idx (atLag h j (n / octetBits)) ord).getLsbD (n % octetBits)) := by
  rw [sumTo_nTaps]
  refine sumTo_congr fun k _ => sumTo_congr fun r hr => ?_
  rw [Nat.mul_add_div (by decide), Nat.mul_add_mod, Nat.mod_eq_of_lt hr, Nat.div_eq_of_lt hr, Nat.add_zero, mul_comm]

/-- Settles O34: the bit order decides where in its octet the bit of age `n` stands. -/
theorem calcIsTheFir : Obligations.CalcIsTheFir := by
  intro c h j ord
  rw [calcSum_eq_sumTo_taps]
  refine sumTo_congr fun n _ => ?_
  cases ord with
  | msbf => rfl
  | lsbf => rw [idx, getLsbD_rev8 _ (Nat.mod_lt _ (by decide)), atLag]

/-! ### Settling (R138) -/

/-- The accumulator is the sum over the history the octet leaves, seen from the slot before its write position. -/
theorem HistRing.acc_eq_calcSum (c : Config) (r : HistRing) (o : Octet) (ord : BitOrder) :
    r.acc c o ord = calcSum c (r.push o).hist ((r.push o).wp - 1) ord := by
  rw [HistRing.push_wp, BitVec.add_sub_cancel, HistRing.acc]

/-- After 16 octets or more, no lag shows what the ring held before them. -/
theorem atLag_feed_of_sixteen (r r' : HistRing) (xs : List Octet) {ys : List Octet} (hys : histCap ≤ ys.length) {k : Nat}
    (hk : k < histCap) :
    atLag (r.feed (xs ++ ys)).hist ((r.feed (xs ++ ys)).wp - 1) k = atLag (r'.feed ys).hist ((r'.feed ys).wp - 1) k := by
  have hlen : k < ys.reverse.length := by rw [List.length_reverse]; omega
  rw [atLag_feed r _ hk, atLag_feed r' _ hk, List.reverse_append, List.getD_append _ _ _ _ hlen,
    List.getD_eq_getElem _ _ hlen, List.getD_eq_getElem _ _ hlen]

/-- With 15 octets before it, an octet's accumulator depends on those 16 alone. -/
theorem HistRing.acc_feed_of_fifteen (c : Config) (ord : BitOrder) (r r' : HistRing) (xs : List Octet) {ys : List Octet}
    (hys : 15 ≤ ys.length) (o : Octet) : (r.feed (xs ++ ys)).acc c o ord = (r'.feed ys).acc c o ord := by
  have hpush : ∀ (q : HistRing) (zs : List Octet), (q.feed zs).push o = q.feed (zs ++ [o]) := fun q zs =>
    (HistRing.feed_append q zs [o]).symm
  rw [HistRing.acc_eq_calcSum, HistRing.acc_eq_calcSum, hpush, hpush, List.append_assoc]
  have hlen : histCap ≤ (ys ++ [o]).length := by rw [List.length_append]; exact Nat.succ_le_succ hys
  exact calcSum_congr c ord fun k hk => atLag_feed_of_sixteen r r' xs hlen hk

/-- Settles O37: octet `i` and the 15 before it fill the ring. -/
theorem settlingLength : Obligations.SettlingLength := by
  intro c ord r r' os i hi hlt
  have hbefore : os.take i = os.take (i - 15) ++ (os.drop (i - 15)).take 15 := by
    rw [← List.take_add, Nat.sub_add_cancel hi]
  have hnewest : ((os.drop (i - 15)).take 16)[15]? = os[i]? := by
    rw [List.getElem?_take_of_lt (by omega), List.getElem?_drop, Nat.sub_add_cancel hi]
  have hwindow : ((os.drop (i - 15)).take 16).take 15 = (os.drop (i - 15)).take 15 := by rw [List.take_take]; rfl
  rw [HistRing.accs_getElem, HistRing.accs_getElem, hnewest, hwindow, hbefore]
  refine congrArg (os[i]?.map ·) (funext fun o => HistRing.acc_feed_of_fifteen c ord r r' _ ?_ o)
  rw [List.length_take, List.length_drop]
  omega

/-! ### Bit-order symmetry (R137) -/

/-- The ring with the bits of every slot reversed. -/
def HistRing.reversed (r : HistRing) : HistRing where
  hist := r.hist.map rev8
  wp := r.wp

theorem atLag_map_rev8 (h : Vector Octet histCap) (j : RingPos) (k : Nat) : atLag (h.map rev8) j k = rev8 (atLag h j k) := by
  simp only [atLag, slotAt, Vector.getElem_map]

theorem HistRing.reversed_push (r : HistRing) (o : Octet) : r.reversed.push (rev8 o) = (r.push o).reversed := by
  simp only [HistRing.push, HistRing.reversed, putSlot, Vector.map_set]

/-- A reversed octet's column under one bit order is the octet's own under the other. -/
theorem calcSum_map_rev8 (c : Config) (h : Vector Octet histCap) (j : RingPos) :
    calcSum c (h.map rev8) j .lsbf = calcSum c h j .msbf :=
  sumTo_congr fun k _ => by rw [atLag_map_rev8, idx, idx, rev8_rev8]

/-- Settles O38, by induction on the octets: the reversed ring stays the reversed ring. -/
theorem bitOrderSymmetry : Obligations.BitOrderSymmetry := by
  intro c r os
  show HistRing.accs c .msbf r os = HistRing.accs c .lsbf r.reversed (os.map rev8)
  induction os generalizing r with
  | nil => rfl
  | cons o os ih =>
    have hacc : r.reversed.acc c (rev8 o) .lsbf = r.acc c o .msbf := by
      rw [HistRing.acc, HistRing.reversed_push]
      exact calcSum_map_rev8 c _ _
    rw [List.map_cons, HistRing.accs, HistRing.accs, hacc, HistRing.reversed_push, ih]

/-! ### Rotation invariance (R139) -/

/-- `r'` is `r` turned by `d` slots. -/
def HistRing.Turned (d : RingPos) (r r' : HistRing) : Prop :=
  r'.wp = r.wp + d ∧ ∀ i, slotAt r'.hist (i + d) = slotAt r.hist i

section Turned
variable {d : RingPos} {r r' : HistRing}

theorem HistRing.Turned.push (h : r.Turned d r') (o : Octet) : (r.push o).Turned d (r'.push o) := by
  obtain ⟨hwp, hslot⟩ := h
  refine ⟨?_, fun i => ?_⟩
  · rw [HistRing.push_wp, HistRing.push_wp, hwp]
    exact add_right_comm r.wp d 1
  · rw [HistRing.push_hist, HistRing.push_hist, hwp]
    by_cases hi : i = r.wp
    · rw [hi, slotAt_putSlot_same, slotAt_putSlot_same]
    · rw [slotAt_putSlot_other _ _ hi, slotAt_putSlot_other _ _ (mt (BitVec.add_left_inj d).mp hi), hslot]

theorem HistRing.Turned.atLag_eq (h : r.Turned d r') (j : RingPos) (k : Nat) :
    atLag r'.hist (j + d) k = atLag r.hist j k := by
  obtain ⟨-, hslot⟩ := h
  rw [atLag, atLag, ← hslot]
  exact congrArg (slotAt r'.hist) (add_sub_right_comm j d _)

/-- Every index is relative to the write position. -/
theorem HistRing.Turned.acc_eq (h : r.Turned d r') (c : Config) (o : Octet) (ord : BitOrder) :
    r'.acc c o ord = r.acc c o ord := by
  have hpush := h.push o
  obtain ⟨hwp, -⟩ := h
  rw [HistRing.acc, HistRing.acc, hwp]
  exact calcSum_congr c ord fun k _ => hpush.atLag_eq r.wp k

end Turned

/-- Settles O39, by induction on the octets: the turned ring stays the turned ring. -/
theorem rotationInvariance : Obligations.RotationInvariance := by
  intro c ord r r' d os hwp hslot
  have hturned : r.Turned d r' := ⟨hwp, hslot⟩
  show HistRing.accs c ord r' os = HistRing.accs c ord r os ∧ (r.feed os).Turned d (r'.feed os)
  clear hwp hslot
  induction os generalizing r r' with
  | nil => exact ⟨rfl, hturned⟩
  | cons o os ih =>
    obtain ⟨haccs, hfeed⟩ := ih (r.push o) (r'.push o) (hturned.push o)
    exact ⟨by rw [HistRing.accs, HistRing.accs, hturned.acc_eq, haccs], hfeed⟩

/-! ### Constant input (R140) -/

/-- A history of one octet shows it at every lag. -/
theorem calcSum_of_constant {h : Vector Octet histCap} {v : Octet} (hv : ∀ i, slotAt h i = v) (c : Config) (j : RingPos)
    (ord : BitOrder) : calcSum c h j ord = sumTo nLag fun k => ctab c k (idx v ord) :=
  sumTo_congr fun k _ => by rw [atLag, hv]

/-- Stepping in the octet that every slot holds leaves every slot as it was. -/
theorem slotAt_push_of_constant {r : HistRing} {v : Octet} (hv : ∀ i, slotAt r.hist i = v) (i : RingPos) :
    slotAt (r.push v).hist i = v := by
  rw [HistRing.push_hist]
  by_cases hi : i = r.wp
  · rw [hi, slotAt_putSlot_same]
  · rw [slotAt_putSlot_other _ _ hi, hv]

theorem HistRing.accs_of_constant {r : HistRing} {v : Octet} (hv : ∀ i, slotAt r.hist i = v) (c : Config) (ord : BitOrder)
    (n : Nat) :
    HistRing.accs c ord r (List.replicate n v) = List.replicate n (sumTo nLag fun k => ctab c k (idx v ord)) := by
  induction n generalizing r with
  | zero => rfl
  | succ n ih =>
    have hpush := slotAt_push_of_constant hv
    rw [List.replicate_succ, List.replicate_succ, HistRing.accs, ih hpush, HistRing.acc, calcSum_of_constant hpush]

/-- Complementing the octets of all lags negates the sum. -/
theorem sumTo_ctab_complement (c : Config) (v : Octet) (ord : BitOrder) :
    (sumTo nLag fun k => ctab c k (idx (v ^^^ 0xFF) ord)) = -sumTo nLag fun k => ctab c k (idx v ord) := by
  simp only [idx_complement, ctab_complement, sumTo_neg]

/-- The greatest columns add up to the sum of the taps. -/
theorem sumTo_ctab_ones (c : Config) (ord : BitOrder) :
    (sumTo nLag fun k => ctab c k (idx 0xFF ord)) = sumTo nTaps (tapAt c) := by
  have hones : idx 0xFF ord = 0xFF := by cases ord <;> decide
  simp only [hones, ctab_ones, sumTo_nTaps]

/-- Settles O40: the fresh ring is constant already, and `0x00` is the complement of `0xFF`. -/
theorem constantInput : Obligations.ConstantInput := by
  intro c ord
  have hzeros : (sumTo nLag fun k => ctab c k (idx 0x00 ord)) = -sumTo nTaps (tapAt c) := by
    rw [← sumTo_ctab_ones c ord, ← sumTo_ctab_complement]
    rfl
  refine ⟨fun h j v hv => calcSum_of_constant hv c j ord, sumTo_ctab_ones c ord, hzeros,
    fun v => sumTo_ctab_complement c v ord, fun n => ?_⟩
  rw [← hzeros]
  exact HistRing.accs_of_constant slotAt_fresh c ord n

/-! ### The sample word (R141 to R143) -/

theorem i2f_zero (frac : Nat) : i2f frac 0 = 0 := if_pos rfl

section SampleWord
variable {a : Int} (frac : Nat) (ha : a ≠ 0)
include ha

theorem i2f_of_ne_zero : i2f frac a =
    BitVec.ofBool (decide (a < 0)) ++ BitVec.ofNat 8 (i2fExp frac a) ++ BitVec.ofNat 23 (i2fFrac a) := if_neg ha

theorem f32Sign_i2f : f32Sign (i2f frac a) = decide (a < 0) := by
  rw [f32Sign, i2f_of_ne_zero frac ha, BitVec.getLsbD_append, if_neg (by decide), BitVec.getLsbD_append,
    if_neg (by decide), BitVec.getLsbD_ofBool]
  exact Bool.true_and _

theorem f32Exp_i2f : f32Exp (i2f frac a) = i2fExp frac a % 2 ^ 8 := by
  rw [f32Exp, i2f_of_ne_zero frac ha, BitVec.extractLsb'_append_eq_of_le le_rfl,
    BitVec.extractLsb'_append_eq_of_add_le (by decide), BitVec.extractLsb'_eq_self, BitVec.toNat_ofNat]

theorem f32Frac_i2f : f32Frac (i2f frac a) = i2fFrac a := by
  rw [f32Frac, i2f_of_ne_zero frac ha, BitVec.extractLsb'_append_eq_of_add_le (by decide), BitVec.extractLsb'_eq_self,
    BitVec.toNat_ofNat, i2fFrac, Nat.mod_mod]

/-- The word's sign is the sum's. -/
theorem f32Sign_i2f_mul_natAbs : (if f32Sign (i2f frac a) then -1 else 1) * (a.natAbs : ℚ) = a := by
  rw [f32Sign_i2f frac ha, Nat.cast_natAbs]
  obtain hneg | hpos := lt_or_gt_of_ne ha
  · simp [hneg, abs_of_neg]
  · simp [not_lt.mpr hpos.le, abs_of_pos hpos]

end SampleWord

theorem two_pow_i2fTop_le {a : Int} (ha : a ≠ 0) : 2 ^ i2fTop a ≤ a.natAbs :=
  Nat.log2_self_le (Int.natAbs_ne_zero.mpr ha)

theorem natAbs_le_of_dom {a : Int} (hdom : |a| ≤ 2 ^ 24) : a.natAbs ≤ 2 ^ 24 := by
  rw [← Int.natCast_natAbs] at hdom
  exact_mod_cast hdom

section Domain
variable {a : Int} (ha : a ≠ 0) (hdom : |a| ≤ 2 ^ 24)
include ha hdom

theorem i2fTop_le : i2fTop a ≤ 24 := by
  have hmag : a.natAbs < 2 ^ 25 := (natAbs_le_of_dom hdom).trans_lt (by decide)
  exact Nat.le_of_lt_succ ((Nat.log2_lt (Int.natAbs_ne_zero.mpr ha)).mpr hmag)

/-- The biased exponent of a nonzero sample is neither of the reserved values (R142). -/
theorem f32Exp_i2f_of_dom {frac : Nat} (hfrac : frac ≤ 126) :
    f32Exp (i2f frac a) = i2fTop a + 127 - frac ∧ 1 ≤ f32Exp (i2f frac a) ∧ f32Exp (i2f frac a) ≤ 151 := by
  have htop := i2fTop_le ha hdom
  rw [f32Exp_i2f frac ha, i2fExp, Nat.mod_eq_of_lt (by omega)]
  omega

/-- The division of R141 is exact: a magnitude with a bit 24 is `2^24`. -/
theorem two_pow_i2fTop_dvd : 2 ^ i2fTop a ∣ a.natAbs * 2 ^ 23 := by
  obtain htop | htop := Nat.lt_or_eq_of_le (i2fTop_le ha hdom)
  · exact Dvd.dvd.mul_left (pow_dvd_pow 2 (Nat.le_of_lt_succ htop)) _
  · have hlow := two_pow_i2fTop_le ha
    rw [htop] at hlow ⊢
    rw [le_antisymm (natAbs_le_of_dom hdom) hlow]
    exact dvd_mul_right _ _

/-- The significand with its leading 1 is the magnitude scaled up to 24 bits (R141). -/
theorem significand_mul_two_pow : (2 ^ 23 + i2fFrac a) * 2 ^ i2fTop a = a.natAbs * 2 ^ 23 := by
  have hlow := two_pow_i2fTop_le ha
  have hhigh : a.natAbs < 2 ^ (i2fTop a + 1) := Nat.lt_log2_self
  obtain ⟨q, hq⟩ := two_pow_i2fTop_dvd ha hdom
  have hpos : 0 < 2 ^ i2fTop a := by positivity
  have hq_low : 2 ^ 23 ≤ q := Nat.le_of_mul_le_mul_left (hq ▸ Nat.mul_le_mul_right (2 ^ 23) hlow) hpos
  have hq_high : q < 2 ^ 24 := by
    refine Nat.lt_of_mul_lt_mul_left (a := 2 ^ i2fTop a) ?_
    rw [← hq]
    omega
  have hfrac : i2fFrac a = q - 2 ^ 23 := by
    rw [i2fFrac, hq, Nat.mul_div_cancel_left _ hpos]
    omega
  rw [hfrac, Nat.add_sub_cancel' hq_low, hq, mul_comm]

/-- The value of a nonzero sample word. -/
theorem f32Value_i2f_of_ne_zero {frac : Nat} (hfrac : frac ≤ 126) :
    f32Value (i2f frac a) = some ((a : ℚ) * (2 : ℚ) ^ (-(frac : ℤ))) := by
  obtain ⟨hexp, hexp_pos, hexp_le⟩ := f32Exp_i2f_of_dom ha hdom hfrac
  have hsig : ((2 ^ 23 + i2fFrac a : Nat) : ℚ) * 2 ^ i2fTop a = a.natAbs * 2 ^ 23 := by
    exact_mod_cast significand_mul_two_pow ha hdom
  have hscale : (2 : ℚ) ^ ((f32Exp (i2f frac a) : ℤ) - 150) = 2 ^ i2fTop a * (2 ^ 23)⁻¹ * 2 ^ (-(frac : ℤ)) := by
    have hsum : (f32Exp (i2f frac a) : ℤ) - 150 = i2fTop a + -(23 : ℕ) + -(frac : ℤ) := by omega
    rw [hsum, zpow_add₀ two_ne_zero, zpow_add₀ two_ne_zero, zpow_neg 2 ((23 : ℕ) : ℤ), zpow_natCast, zpow_natCast]
  rw [f32Value, if_neg (by omega), if_neg (by omega), f32Frac_i2f frac ha, hscale]
  congr 1
  calc _ = (if f32Sign (i2f frac a) then -1 else 1) *
        (((2 ^ 23 + i2fFrac a : Nat) : ℚ) * 2 ^ i2fTop a) * (2 ^ 23)⁻¹ * 2 ^ (-(frac : ℤ)) := by ring
    _ = (if f32Sign (i2f frac a) then -1 else 1) * (a.natAbs : ℚ) * 2 ^ (-(frac : ℤ)) := by rw [hsig]; ring
    _ = a * 2 ^ (-(frac : ℤ)) := by rw [f32Sign_i2f_mul_natAbs frac ha]

end Domain

theorem f32Value_zero : f32Value 0 = some 0 := by
  have hexp : f32Exp 0 = 0 := by decide
  have hfrac : f32Frac 0 = 0 := by decide
  rw [f32Value, hexp, hfrac, if_neg (by decide), if_pos rfl, Nat.cast_zero, mul_zero, zero_mul]

/-- Settles O41: the fraction with its leading 1 is the magnitude shifted, and the exponent undoes the shift. -/
theorem sampleIsExact : Obligations.SampleIsExact := by
  intro frac a hfrac hdom
  by_cases ha : a = 0
  · rw [ha, i2f_zero, f32Value_zero, Int.cast_zero, zero_mul]
  · exact f32Value_i2f_of_ne_zero ha hdom hfrac

/-- Settles O42: equal words stand for equal values, from which the sums can be recovered. -/
theorem sampleIsNormalOrZero : Obligations.SampleIsNormalOrZero := by
  intro frac hfrac
  refine ⟨i2f_zero frac, fun a ha hdom => ?_, fun a b hadom hbdom hword => ?_⟩
  · obtain ⟨-, hexp_pos, hexp_le⟩ := f32Exp_i2f_of_dom ha hdom hfrac
    exact ⟨hexp_pos, hexp_le, by rw [f32Sign_i2f frac ha, decide_eq_true_iff]⟩
  · have hvalue := sampleIsExact frac a hfrac hadom
    rw [hword, sampleIsExact frac b hfrac hbdom, Option.some_inj] at hvalue
    have hscale : (2 : ℚ) ^ (-(frac : ℤ)) ≠ 0 := zpow_ne_zero _ two_ne_zero
    exact_mod_cast (mul_right_cancel₀ hscale hvalue).symm

end Sys2Proof.Machine
end

section
/-! What the host is owed and what stands still (spec/60_exceptions.md): the result of a whole TRANSLATE, the host's wait and
store, and turns with nothing to do. -/

namespace Sys2Proof.Machine

/-! ### The end of a TRANSLATE (R176) -/

/-- Settles O27: on a clean layout ring and words are those of the octets as the command found them. -/
theorem translateKeepsItsPromise : Obligations.TranslateKeepsItsPromise := by
  intro s n e j ts he hi hmem hwf hcount hp hadm hclean hts
  refine ⟨_, translateRunsToCompletion s n e j ts he hi hwf hcount hp hadm hts, ?_,
    fun m hm => State.setEngine_lookup_other hm, fun i a ha k hk => ?_,
    fun x hx => Job.after_read_other (x := (e.ring, s.mem)) hx⟩
  · rw [← Job.after_count_ring (x := (e.ring, s.mem)) hclean]
    exact State.setEngine_lookup_same he
  · have hic : i < j.count := by simpa [Job.octets_length] using (List.getElem?_eq_some_iff.mp ha).1
    rw [← Job.word_of_accs (x := (e.ring, s.mem)) hclean ha]
    exact Job.after_read_out hclean hmem hic le_rfl hk

/-! ### Turns with nothing to do (R172, R190) -/

/-- No instance has work when each of them is idle with an empty port. -/
theorem firstWorking_eq_none_iff {n : Nat} {es : List Engine} :
    firstWorking n es = none ↔ ∀ e ∈ es, e.free = true := by
  induction es generalizing n with
  | nil => simp [firstWorking]
  | cons e es ih => cases hf : e.free <;> simp [firstWorking, hf, ih]

/-- In a run that is over every instance is idle with an empty port (R190). -/
theorem State.over_engines_free {s : State} (h : s.over = true) : ∀ e ∈ s.engines, e.free = true := by
  simp only [State.over, Bool.and_eq_true, List.all_eq_true] at h
  obtain ⟨⟨hfree, -⟩, -⟩ := h
  exact hfree

/-- Nobody moves when no instance has work and the host no act. -/
theorem State.defaultTurn_eq_none {s : State} (hfree : ∀ e ∈ s.engines, e.free = true) (hh : s.host = []) :
    s.defaultTurn = none := by
  simp [State.defaultTurn, firstWorking_eq_none_iff.mpr hfree, hh]

/-- A step with nobody to move. -/
theorem step_nobody {s : State} (hts : s.turns = []) (hd : s.defaultTurn = none) : step s = .next s := by
  simp only [step, hts, hd]

/-- Settles O8. -/
theorem idleKeepsItsState : Obligations.IdleKeepsItsState := by
  refine ⟨fun s n hold ts e hts he hi hp => ?_, fun s hover hh hts => ?_⟩
  · rw [step_engine_turn hts]
    exact engineTurn_idle he hi hp
  · exact step_nobody hts (State.defaultTurn_eq_none (State.over_engines_free hover) hh)

/-! ### The host's wait and store (R173, R178) -/

section HostActs
variable {s : State} {n a : Nat} {b : Octet} {e : Engine} {acts : List HostAct}

/-- A wait is over when the instance is idle and its port holds nothing. -/
theorem hostTurn_await_ends (hh : s.host = .await n :: acts) (he : s.engines[n]? = some e) (hf : e.free = true) :
    hostTurn s = .next { s with host := acts } := by
  simp [hostTurn, hh, he, hf]

/-- A wait goes on while the instance is busy or its port holds a packet. -/
theorem hostTurn_await_waits (hh : s.host = .await n :: acts) (he : s.engines[n]? = some e) (hf : e.free = false) :
    hostTurn s = .next s := by
  simp [hostTurn, hh, he, hf]

/-- A store inside the address space. -/
theorem hostTurn_store (hh : s.host = .store a b :: acts) (ha : a < 2 ^ s.cfg.addrW) :
    hostTurn s = .next { s with host := acts, mem := s.mem.write a b } := by
  simp [hostTurn, hh, ha]

end HostActs

/-- Settles O47. -/
theorem awaitEndsAtCompletion : Obligations.AwaitEndsAtCompletion := by
  intro s n e ts acts hts hh he
  rw [step_host_turn hts]
  exact ⟨fun hdone => hostTurn_await_ends hh he (Engine.free_iff.mpr hdone),
    fun hbusy => hostTurn_await_waits hh he (Engine.free_eq_false_iff.mpr hbusy)⟩

/-- Settles O48. -/
theorem hostStoresOneByte : Obligations.HostStoresOneByte := by
  intro s a b ts acts hts hh hmem ha
  rw [step_host_turn hts]
  exact ⟨s.mem.write a b, hostTurn_store hh ha, Memory.read_write_same s.mem a b hmem,
    fun x hx => Memory.read_write_other s.mem a x b hx⟩

end Sys2Proof.Machine
end

section
/-! Reset and hazards (spec/70_reset_and_hazards.md): what the hardware reset does, the record that it ended a command,
and that a run which is over stays over. -/

namespace Sys2Proof.Machine

/-! ### Hardware reset (R180) -/

/-- A step at the host's settled turn with the reset input next. -/
theorem step_hardReset {s : State} {ts : List Turn} {acts : List HostAct} (hts : s.turns = .host :: ts)
    (hh : s.host = .hardReset :: acts) :
    step s = .next (State.hardReset { s with turns := ts, host := acts }) := by
  rw [step_host_turn hts]
  simp [hostTurn, hh]

/-- Not every instance is free when some instance is busy or has a packet on its port. -/
theorem not_all_free_iff {es : List Engine} :
    (!es.all Engine.free) = true ↔ ∃ e ∈ es, e.flight ≠ none ∨ e.port.words ≠ [] := by
  simp [← Engine.free_eq_false_iff]

/-- The record after a hardware reset says that this reset, or one before it, ended a command (R190, U17). -/
theorem State.hardReset_cut_iff {s : State} :
    s.hardReset.cut = true ↔ s.cut = true ∨ ∃ e ∈ s.engines, e.flight ≠ none ∨ e.port.words ≠ [] := by
  rw [State.hardReset_cut, Bool.or_eq_true, not_all_free_iff]

/-- Settles O49: the record is the one the reset itself leaves. -/
theorem hardResetMakesAllFresh : Obligations.HardResetMakesAllFresh := by
  intro s ts acts hts hh
  refine ⟨s.hardReset.cut, ?_, State.hardReset_cut_iff⟩
  rw [step_hardReset hts hh, State.hardReset, List.map_const', State.hardReset_cut]

/-! ### The record of a command ended (R190, U17) -/

/-- The host's turn leaves the record as it is, or as a hardware reset leaves it. -/
theorem hostTurn_cut {s t : State} (h : hostTurn s = .next t) : t.cut = s.cut ∨ t.cut = s.hardReset.cut := by
  rcases hostTurn_next h with rfl | ⟨n, words, launch, acts, e, -, -, -, -, rfl⟩ | ⟨a, b, acts, -, -, rfl⟩ |
    ⟨n, acts, e, -, -, -, rfl⟩ | ⟨acts, -, rfl⟩
  case inr.inr.inr.inr => exact .inr rfl
  all_goals exact .inl rfl

/-- An instance's turn leaves the record as it is. -/
theorem engineTurn_cut {s t : State} (h : engineTurn s = .next t) : t.cut = s.cut := by
  obtain ⟨m, e, rfl⟩ := engineTurn_ownUpdate h
  rfl

/-- A step leaves the record as it is, or as a hardware reset leaves it, whoever moves. -/
theorem step_cut {s t : State} (h : step s = .next t) : t.cut = s.cut ∨ t.cut = s.hardReset.cut := by
  rcases step_next h with rfl | ⟨ts, hh⟩ | ⟨n, hold, ts, he⟩
  · exact .inl rfl
  · exact hostTurn_cut (s := { s with turns := ts }) hh
  · exact .inl (engineTurn_cut (s := { s with turns := ts, cur := n, hold := hold }) he)

/-- R190's three conditions, one by one. -/
theorem State.over_iff {s : State} :
    s.over = true ↔ (∀ e ∈ s.engines, e.free = true) ∧ (∀ a ∈ s.host, a.issues = false) ∧ s.cut = false := by
  simp [State.over, and_assoc]

/-- Settles O10: the record only grows, and grows only where a reset finds an instance that is not free. -/
theorem cutRunIsNeverOver : Obligations.CutRunIsNeverOver := by
  refine ⟨fun s t ts acts n e hts hh he hactive h => ?_, fun s t hcut h => ?_, fun s hcut => ?_,
    fun s t hcut hfree h => ?_⟩
  · obtain rfl := Host.Outcome.next.inj ((step_hardReset hts hh).symm.trans h)
    exact State.hardReset_cut_iff.mpr (.inr ⟨e, List.mem_of_getElem? he, hactive⟩)
  · rcases step_cut h with ht | ht
    · exact ht.trans hcut
    · exact ht.trans (State.hardReset_cut_iff.mpr (.inl hcut))
  · simp [State.over, hcut]
  · have hall : s.engines.all Engine.free = true := List.all_eq_true.mpr fun e he => Engine.free_iff.mpr (hfree e he)
    rcases step_cut h with ht | ht
    · exact ht.trans hcut
    · simp [ht, hcut, hall]

/-! ### A run that is over (R190, R172) -/

/-- An instance's turn changes nothing while every instance is free (R172). -/
theorem engineTurn_of_all_free {s : State} (hfree : ∀ e ∈ s.engines, e.free = true) : engineTurn s = .next s := by
  cases he : s.engines[s.cur]? with
  | none => simp [engineTurn, State.work, he]
  | some e =>
    obtain ⟨hi, hp⟩ := Engine.free_iff.mp (hfree e (List.mem_of_getElem? he))
    exact engineTurn_idle he hi hp

/-- The host's turn in a run that is over leaves it over, and changes an instance only by the reset input. -/
theorem hostTurn_keeps_over {s t : State} (hs : s.over = true) (h : hostTurn s = .next t) :
    t.over = true ∧ (s.host.head? ≠ some .hardReset → t.engines = s.engines) := by
  obtain ⟨hfree, hacts, hcut⟩ := State.over_iff.mp hs
  have htail {a : HostAct} {acts : List HostAct} (hh : s.host = a :: acts) : ∀ b ∈ acts, b.issues = false :=
    fun b hb => hacts b (by simp [hh, hb])
  rcases hostTurn_next h with rfl | ⟨n, words, launch, acts, e, hh, -⟩ | ⟨a, b, acts, hh, -, rfl⟩ |
    ⟨n, acts, e, hh, -, -, rfl⟩ | ⟨acts, hh, rfl⟩
  case inl => exact ⟨hs, fun _ => rfl⟩
  case inr.inl => exact absurd (hacts (.issue n words launch) (by simp [hh])) (by simp [HostAct.issues])
  case inr.inr.inl => exact ⟨State.over_iff.mpr ⟨hfree, htail hh, hcut⟩, fun _ => rfl⟩
  case inr.inr.inr.inl => exact ⟨State.over_iff.mpr ⟨hfree, htail hh, hcut⟩, fun _ => rfl⟩
  case inr.inr.inr.inr =>
    have hall : s.engines.all Engine.free = true := List.all_eq_true.mpr hfree
    refine ⟨State.over_iff.mpr ⟨fun e he => ?_, htail hh, by simp [hcut, hall]⟩,
      fun hreset => absurd (by rw [hh]; rfl) hreset⟩
    obtain ⟨-, -, rfl⟩ := List.mem_map.mp he
    rfl

/-- Settles O9: free instances have nothing to do at their turns, and the host has no command to give them. -/
theorem overStaysOver : Obligations.OverStaysOver := by
  intro s t hs h
  rcases step_next h with rfl | ⟨ts, hh⟩ | ⟨n, hold, ts, he⟩
  · exact ⟨hs, fun _ => rfl⟩
  · exact hostTurn_keeps_over (s := { s with turns := ts }) hs hh
  · have hidle :=
      engineTurn_of_all_free (s := { s with turns := ts, cur := n, hold := hold }) (State.over_engines_free hs)
    obtain rfl := Host.Outcome.next.inj (hidle.symm.trans he)
    exact ⟨hs, fun _ => rfl⟩

end Sys2Proof.Machine
end
